-- ==== Sys2Proof/Word.lean ====
section
/-!
DEFINITION. The words of the hardware: node index, node word, symbol, and the reserved field of a LEAF word
(spec/00_scope.md R5, R7; spec/30_encoding.md R60).
-/

namespace Sys2Proof

/-- A node index, the width of the cursor and of a child link (R5: `IDX_W` = 9). -/
abbrev NodeIndex := BitVec 9

/-- One entry of the node memory (R5: `NODE_W` = 19). -/
abbrev NodeWord := BitVec 19

/-- A symbol (R5: `SYM_W` = 8). -/
abbrev SymbolByte := BitVec 8

/-- The field `rsv` of a LEAF word, bits 17:8 (R60). -/
abbrev Reserved := BitVec 10

end Sys2Proof
end

