-- ==== Sys2Proof/Ports.lean ====
section
/-!
DEFINITION. The ports of the block: the values of the input ports in one cycle (spec/10_state.md R28) and of the
output ports (R29). `clk` is no field: one step of the model is one rising edge.
-/

namespace Sys2Proof

/-- The input ports in one cycle (R28). A port that is not named is 0, as in spec/95_test_vectors.md. -/
structure Inputs where
  /-- `rst`: synchronous reset, highest priority. -/
  rst : Bool := false
  /-- `start`: begins a run in a phase other than RUN. -/
  start : Bool := false
  /-- `strict_i`: copied into `strict` by an accepted START. -/
  strictI : Bool := false
  /-- `tw_en`: node write enable. -/
  twEn : Bool := false
  /-- `tw_addr`: node index to write. -/
  twAddr : NodeIndex := 0
  /-- `tw_data`: node word to write. -/
  twData : NodeWord := 0
  /-- `bit_valid`: `bitData` is the next bit of the stream. -/
  bitValid : Bool := false
  /-- `bit_data`: the bit. -/
  bitData : Bool := false
  /-- `bit_eos`: with `bitValid` = 0, the stream has ended. -/
  bitEos : Bool := false
  /-- `sym_ready`: the sink takes the symbol on offer. -/
  symReady : Bool := false
  deriving DecidableEq, Repr, Inhabited

/-- The output ports (R29). -/
structure Outputs where
  bitReady : Bool
  symValid : Bool
  symData : SymbolByte
  busy : Bool
  done : Bool
  error : Bool
  errCode : BitVec 2
  errBitO : Bool
  cursorO : NodeIndex
  deriving DecidableEq, Repr

end Sys2Proof
end

