-- ==== Sys2Proof/Config.lean ====
section
/-!
DEFINITION. The parameters of the hardware (spec/00_scope.md R5) and the model's free values: what the spec leaves
unspecified (spec/20_memory.md R50) or to the environment (spec/00_scope.md R11 item 6). A free value has no body:
nothing can evaluate it, so a statement about it holds whatever it is.
-/

namespace Sys2Proof

/-- `DEPTH`: the number of node-memory entries (R5). -/
def Config.depth : Nat := 512

/-- `ROOT`: the index of the tree root (R5). -/
def Config.root : NodeIndex := 0#9

/-- `NULL`: the link value that means a missing child (R5). -/
def Config.null : NodeIndex := 0#9

/-- FREE VALUE (log 2): the word an entry holds from power-up until a WRNODE writes it (R50, U1), stable between
reads. DESIGN CHOICE of form; safe: any word is possible. -/
opaque Config.powerUpWord : NodeIndex → NodeWord

/-- FREE VALUE (log 1): what host, source and sink drive in cycle `n` where State's script `pins` says nothing of
that cycle. DESIGN CHOICE of form; safe: any port values are possible. -/
opaque Config.freeInputs : Nat → Inputs

end Sys2Proof
end

