-- ==== Sys2Proof/Syntax.lean ====
section
/-!
DEFINITION. The instructions: the two node words of spec/30_encoding.md R65 and the five port events of
spec/41_host_and_stream_events.md R100 and spec/70_reset_and_hazards.md R140, one constructor for each row of
spec/opcode_table.json.
-/

namespace Sys2Proof

inductive Instr where
  /-- `NODE l, r`: go left on bit 0, right on bit 1 (R62, R81, R82). -/
  | node (left right : NodeIndex)
  /-- `LEAF s`: offer the symbol, then return to the root (R64, R83, R84). `rsv` is kept so that the word can be
  written back; the hardware ignores it. -/
  | leaf (rsv : Reserved) (sym : SymbolByte)
  /-- `RESET`: `rst` = 1 (R140). -/
  | reset
  /-- `WRNODE i, v`: `tw_en` = 1, `tw_addr` = i, `tw_data` = v (R101). -/
  | wrnode (index : NodeIndex) (word : NodeWord)
  /-- `START`: `start` = 1 with `strict_i` (R102). -/
  | start (strictI : Bool)
  /-- `EOS`: `bit_valid` = 0 and `bit_eos` = 1 (R104). -/
  | eos
  /-- `STALL`: a cycle in which nothing acts (R105, R107). -/
  | stall
  deriving DecidableEq, Repr

end Sys2Proof
end

