-- ==== Sys2Proof/WellFormed.lean ====
section
/-!
DEFINITION. Which instructions are node words. Every field of `Instr` has the width of its field in the spec, so
every value of a field is legal (spec/30_encoding.md R61, R66); what is left to check is that an instruction is one
that the node memory can hold (R65: the events are not encoded in memory), and, for loaders, that it is written in
its canonical form (R64). The well-formed tree image of spec/70_reset_and_hazards.md R144 is in Safety.lean.
-/

namespace Sys2Proof

/-- The instruction is a node word (R60, R65): it has an encoding and can be fetched. The five events are not. -/
def Instr.wellFormed : Instr → Bool
  | .node _ _ => true
  | .leaf _ _ => true
  | .reset => false
  | .wrnode _ _ => false
  | .start _ => false
  | .eos => false
  | .stall => false

/-- The node word is in the canonical form loaders write (R64): `rsv` is 0. -/
def Instr.canonical : Instr → Bool
  | .node _ _ => true
  | .leaf rsv _ => rsv == 0
  | .reset => false
  | .wrnode _ _ => false
  | .start _ => false
  | .eos => false
  | .stall => false

end Sys2Proof
end

