-- ==== Sys2Proof/Decode.lean ====
section
/-!
DEFINITION. Decoding and encoding of node words (spec/30_encoding.md R60 to R66). `decode` is total on the words of
the memory, as R61 says. A number of more than 19 bits is no node word and is rejected by name. The events have no
encoding (R65).
-/

namespace Sys2Proof

/-- Bit 18, `tag`: 1 for a LEAF (R60). -/
def tagBit (w : NodeWord) : Bool := w.getLsbD 18

/-- Bits 17:9 of a NODE word (R60). -/
def leftField (w : NodeWord) : NodeIndex := w.extractLsb' 9 9

/-- Bits 8:0 of a NODE word (R60). -/
def rightField (w : NodeWord) : NodeIndex := w.extractLsb' 0 9

/-- Bits 17:8 of a LEAF word (R60), ignored by the hardware (R64). -/
def rsvField (w : NodeWord) : Reserved := w.extractLsb' 8 10

/-- Bits 7:0 of a LEAF word (R60). -/
def symField (w : NodeWord) : SymbolByte := w.extractLsb' 0 8

/-- The instruction a node word is (R61). -/
def decode (w : NodeWord) : Instr :=
  if tagBit w then .leaf (rsvField w) (symField w) else .node (leftField w) (rightField w)

/-- Why a number is no node word. -/
inductive DecodeError where
  /-- It has bits above bit 18 (R60: one instruction length, 19 bits). -/
  | widerThanNodeWord
  deriving DecidableEq, Repr

/-- Decode a number: a node word of 19 bits, or rejected by name (log 9). -/
def decodeNumber (n : Nat) : Except DecodeError Instr :=
  if n < 2 ^ 19 then .ok (decode (BitVec.ofNat 19 n)) else .error .widerThanNodeWord

/-- The instruction of an opcode-table word: its low `nbits` bits, the rest 0. There are no operand words. -/
def decodeTableWord (nbits w : Nat) : Option Instr :=
  match decodeNumber (w % 2 ^ nbits) with
  | .ok i => some i
  | .error _ => none

/-- The NODE word with these links, format N of R60: `tag` = 0, `left` at bits 17:9, `right` at bits 8:0. -/
def nodeWordOf (left right : NodeIndex) : NodeWord := (left.setWidth 19 <<< 9) ||| right.setWidth 19

/-- The LEAF word with these fields, format L of R60: `tag` = 1 at bit 18, `rsv` at bits 17:8, `sym` at 7:0. -/
def leafWordOf (rsv : Reserved) (sym : SymbolByte) : NodeWord :=
  BitVec.twoPow 19 18 ||| (rsv.setWidth 19 <<< 8) ||| sym.setWidth 19

/-- The word of an instruction (R60); an event has none (R65). -/
def encode : Instr → Option NodeWord
  | .node left right => some (nodeWordOf left right)
  | .leaf rsv sym => some (leafWordOf rsv sym)
  | .reset => none
  | .wrnode _ _ => none
  | .start _ => none
  | .eos => none
  | .stall => none

/-- The `mask` of both rows of the opcode map (R65). -/
def opcodeMask : NodeWord := 0x40000#19

/-- The `match` of the row an instruction stands in (R65); an event's row has none. -/
def opcodeMatch : Instr → Option NodeWord
  | .node _ _ => some 0x00000#19
  | .leaf _ _ => some 0x40000#19
  | .reset => none
  | .wrnode _ _ => none
  | .start _ => none
  | .eos => none
  | .stall => none

end Sys2Proof
end

