-- ==== Sys2Proof/Machine/State.lean ====
section
/-!
DEFINITION. The state of the machine as plain data (spec/10_state.md R20 to R26, R31), and the reasons a step could
stop. The hardware's own state is `phase`, `cursor`, `strict`, `err`, `errBit` and `mem`, and nothing else (R20,
R32). The last four fields are the MODEL's own: they hold what the environment will drive and what it has seen.
-/

namespace Sys2Proof.Machine

/-- The life cycle of a run (R22). -/
inductive Phase where
  | idle
  | run
  | done
  | error
  deriving DecidableEq, Repr

/-- The cause code of the last fault (R24). Code 3 is never produced and has no constructor (log 5). -/
inductive ErrCode where
  | none
  | brokenTree
  | truncatedStream
  deriving DecidableEq, Repr

/-- The node memory (R26, R40): the entries a WRNODE has written since power-up, as (index, word) pairs, indexes
strictly rising. An index that is not listed reads as `Config.powerUpWord` (log 2, log 3). -/
abbrev Memory := List (Nat × NodeWord)

structure State where
  /-- `phase` (R22). -/
  phase : Phase
  /-- `cursor`, the program counter (R21). -/
  cursor : NodeIndex
  /-- `strict` (R23). -/
  strict : Bool
  /-- `err` (R24). -/
  err : ErrCode
  /-- `err_bit` (R25). -/
  errBit : Bool
  /-- `mem` (R26). -/
  mem : Memory
  /-- MODEL's own (log 1): the input-port values of the coming cycles, this cycle's first. -/
  pins : List Inputs
  /-- MODEL's own (log 1): the number of edges so far; it picks the free inputs past the end of `pins`. -/
  cycle : Nat
  /-- MODEL's own (log 4): the symbols the sink has taken, oldest first. -/
  taken : List SymbolByte
  /-- MODEL's own (log 4): the bits consumed from the source, oldest first. -/
  consumed : List Bool
  deriving DecidableEq, Repr

/-- Why the machine stops with a fault: it never does. Every fault of the spec is an entry into phase ERROR, a next
state (spec/60_exceptions.md R124), and R129 says that there is no other. -/
inductive Fault where
  deriving DecidableEq, Repr

/-- Why an instruction is refused. -/
inductive Refusal where
  /-- Raised by an arm of `exec` whose instruction has no meaning yet; safe. No arm of this model raises it. -/
  | notModelled (mnemonic : String)
  deriving DecidableEq, Repr

/-- The machine right after RESET (R31). No memory entry has been written (R50). The model's own fields are at the
values log 6 names. -/
def State.reset : State :=
  { phase := .idle, cursor := 0#9, strict := false, err := .none, errBit := false, mem := [],
    pins := [], cycle := 0, taken := [], consumed := [] }

end Sys2Proof.Machine
end

