-- ==== Sys2Proof/Machine/Ops.lean ====
section
/-!
DEFINITION. The named operations over memory and registers, and the entry into phase ERROR: the one operation that
takes a fault (spec/60_exceptions.md R124). There is no return from a fault (R128): ERROR is left only by
`State.beginRun` and `State.resetRegisters`.
-/

namespace Sys2Proof.Machine

/-! ### The node memory -/

/-- The canonical form: indexes strictly rising, each inside the 512 entries (R40). -/
abbrev Memory.wf (m : Memory) : Prop :=
  (m.map Prod.fst).Pairwise (· < ·) ∧ ∀ c ∈ m, c.1 < Config.depth

/-- The word written at an index, if any. -/
def Memory.lookup : Memory → Nat → Option NodeWord
  | [], _ => none
  | (b, w) :: m, a => if a = b then some w else Memory.lookup m a

/-- What an unlisted index reads as: its power-up content (R50, log 2). -/
def Memory.unlisted (i : NodeIndex) : NodeWord := Config.powerUpWord i

/-- `MemRead(i, 1)` (R42): the word last written at `i`; no side effect, no fault. -/
def Memory.read (m : Memory) (i : NodeIndex) : NodeWord :=
  match Memory.lookup m i.toNat with
  | some w => w
  | none => Memory.unlisted i

/-- Whether a WRNODE has written the entry since power-up (R50). -/
def Memory.written (m : Memory) (i : NodeIndex) : Bool := (Memory.lookup m i.toNat).isSome

/-- Put a word at an index, keeping the indexes strictly rising. -/
def Memory.insert : Memory → Nat → NodeWord → Memory
  | [], a, v => [(a, v)]
  | (b, w) :: m, a, v =>
    if a < b then (a, v) :: (b, w) :: m
    else if a = b then (a, v) :: m
    else (b, w) :: Memory.insert m a v

/-- `MemWrite(i, 1, v)` (R43): all 19 bits of one entry. -/
def Memory.write (m : Memory) (i : NodeIndex) (v : NodeWord) : Memory := Memory.insert m i.toNat v

/-! ### The input ports of the current cycle -/

/-- The input ports in this cycle: the head of the script, or free values where the script has ended (log 1). -/
def State.inputs (s : State) : Inputs :=
  match s.pins with
  | p :: _ => p
  | [] => Config.freeInputs s.cycle

/-- The end of the cycle: the next cycle's port values come up. -/
def State.endCycle (s : State) : State := { s with pins := s.pins.tail, cycle := s.cycle + 1 }

/-! ### Reading and writing the registers -/

/-- `node = MemRead(cursor, 1)` (R27). -/
def State.node (s : State) : NodeWord := s.mem.read s.cursor

/-- `cursor <- t` (R8). -/
def State.setCursor (s : State) (t : NodeIndex) : State := { s with cursor := t }

/-- `phase <- p`. -/
def State.setPhase (s : State) (p : Phase) : State := { s with phase := p }

/-- `mem[i] <- v` (R101). -/
def State.storeNode (s : State) (i : NodeIndex) (v : NodeWord) : State := { s with mem := s.mem.write i v }

/-- The register writes of START (R102). -/
def State.beginRun (s : State) (strictI : Bool) : State :=
  { s with phase := .run, cursor := Config.root, strict := strictI, err := .none, errBit := false }

/-- The register writes of RESET (R140): the values of R31, memory unchanged. -/
def State.resetRegisters (s : State) : State :=
  { s with phase := .idle, cursor := Config.root, strict := false, err := .none, errBit := false }

/-! ### Taking a fault -/

/-- The entry into phase ERROR (R124): the code and the bit are recorded; cursor, strict and memory are kept. -/
def State.takeFault (s : State) (code : ErrCode) (bit : Bool) : State :=
  { s with phase := .error, err := code, errBit := bit }

/-- `raise BrokenTree(b)` (R124). -/
def State.raiseBrokenTree (s : State) (b : Bool) : State := s.takeFault .brokenTree b

/-- `raise TruncatedStream()` (R124): `err_bit` becomes 0. -/
def State.raiseTruncatedStream (s : State) : State := s.takeFault .truncatedStream false

/-! ### The environment's records (log 4) -/

/-- `emit(sym)` (R8): the sink takes the symbol. -/
def State.sinkTakes (s : State) (sym : SymbolByte) : State := { s with taken := s.taken ++ [sym] }

/-- The source has the bit consumed (R29). -/
def State.bitConsumed (s : State) (b : Bool) : State := { s with consumed := s.consumed ++ [b] }

end Sys2Proof.Machine
end

