-- ==== Sys2Proof/Machine/Operands.lean ====
section
/-!
DEFINITION. The operand forms: the child link an input bit selects and the null link (spec/30_encoding.md R62, R63).
A link is a node index as it stands: no scaling, no offset, no extension.
-/

namespace Sys2Proof.Machine

/-- `link = (b == 0) ? l : r` (R62). -/
def selectedLink (left right : NodeIndex) (b : Bool) : NodeIndex := if b then right else left

/-- The link a bit selects in a NODE word (R62). -/
def wordLink (w : NodeWord) (b : Bool) : NodeIndex := selectedLink (leftField w) (rightField w) b

/-- The link is missing (R63). -/
def isNull (link : NodeIndex) : Bool := link == Config.null

end Sys2Proof.Machine
end

