-- ==== Sys2Proof/Machine/Flags.lean ====
section
/-!
DEFINITION. The derived conditions (spec/10_state.md R27), the codes of `phase` and `err` (R22, R24), the status
flags (R30) and the output ports (R29). All are functions of the state alone.
-/

namespace Sys2Proof.Machine

/-- The code of `phase` (R22). -/
def Phase.code : Phase → BitVec 2
  | .idle => 0
  | .run => 1
  | .done => 2
  | .error => 3

/-- The code of `err` (R24). -/
def ErrCode.code : ErrCode → BitVec 2
  | .none => 0
  | .brokenTree => 1
  | .truncatedStream => 2

/-- `is_leaf` (R27). -/
def isLeaf (s : State) : Bool := tagBit s.node

/-- `emit` (R27): an emission is pending. The conjuncts of R27, the cursor tested before the word. -/
def emit (s : State) : Bool := s.phase == .run && s.cursor != Config.root && isLeaf s

/-- `bit_ready` (R29). -/
def bitReady (s : State) : Bool := s.phase == .run && !emit s

/-- `sym_valid` (R29). -/
def symValid (s : State) : Bool := emit s

/-- `sym_data` (R29). -/
def symData (s : State) : SymbolByte := if emit s then symField s.node else 0

/-- The output ports (R29). -/
def out (s : State) : Outputs :=
  { bitReady := bitReady s
    symValid := symValid s
    symData := symData s
    busy := s.phase == .run
    done := s.phase == .done
    error := s.phase == .error
    errCode := s.err.code
    errBitO := s.errBit
    cursorO := s.cursor }

/-- What the two handshakes of a cycle do whatever else the cycle does (R29, C5): a symbol on offer that the sink
is ready for is taken, and a bit on offer that the decoder is ready for is consumed. RESET uses it: an edge with
`rst` = 1 does not undo them (R142). -/
def State.handshakes (s : State) : State :=
  let s1 := if symValid s && s.inputs.symReady then s.sinkTakes (symData s) else s
  if bitReady s && s.inputs.bitValid then s1.bitConsumed s.inputs.bitData else s1

end Sys2Proof.Machine
end

