-- ==== Sys2Proof/Machine/HostPort.lean ====
section
/-!
DEFINITION. The meanings of the host's events RESET, WRNODE and START (spec/70_reset_and_hazards.md R140, R142;
spec/41_host_and_stream_events.md R101, R102, R106).
-/

namespace Sys2Proof.Machine

/-- `RESET` (R140), in any phase. Memory is kept; what source and sink hand over in this very cycle stays handed
over (R142). -/
def execReset (s : State) : Host.Outcome State Fault Refusal := .next s.handshakes.resetRegisters

/-- `WRNODE i, v` (R101): one word is stored; ignored in phase RUN (R106). -/
def execWrnode (index : NodeIndex) (word : NodeWord) (s : State) : Host.Outcome State Fault Refusal :=
  if s.phase == .run then .next s else .next (s.storeNode index word)

/-- `START` (R102): a run begins at the root; ignored in phase RUN (R106). -/
def execStart (strictI : Bool) (s : State) : Host.Outcome State Fault Refusal :=
  if s.phase == .run then .next s else .next (s.beginRun strictI)

end Sys2Proof.Machine
end

