-- ==== Sys2Proof/Machine/NodeWords.lean ====
section
/-!
DEFINITION. The meanings of the two node words, NODE and LEAF (spec/40_decode_step.md R81 to R84).
-/

namespace Sys2Proof.Machine

/-- `NODE l, r`. In phase RUN, with a bit on offer, the bit is consumed; it moves the cursor to the link it selects
(R81), or raises BrokenTree where that link is missing (R82). Without a bit nothing changes (R105), and outside RUN
no bit is consumed (R107). -/
def execNode (left right : NodeIndex) (s : State) : Host.Outcome State Fault Refusal :=
  if s.phase == .run && s.inputs.bitValid then
    let b := s.inputs.bitData
    let link := selectedLink left right b
    if isNull link then .next ((s.bitConsumed b).raiseBrokenTree b)
    else .next ((s.bitConsumed b).setCursor link)
  else .next s

/-- `LEAF s`. In phase RUN at a cursor other than 0 the symbol is on offer: taken, the cursor returns to the root;
not taken, nothing changes (R83). At index 0 the leaf is never emitted: a bit raises BrokenTree, the end of the
stream ends the run (R84). Outside RUN nothing happens (R107). The field `rsv` is ignored (R64). -/
def execLeaf (sym : SymbolByte) (s : State) : Host.Outcome State Fault Refusal :=
  if s.phase == .run then
    if s.cursor != Config.root then
      if s.inputs.symReady then .next ((s.sinkTakes sym).setCursor Config.root) else .next s
    else if s.inputs.bitValid then
      .next ((s.bitConsumed s.inputs.bitData).raiseBrokenTree s.inputs.bitData)
    else if s.inputs.bitEos then .next (s.setPhase .done)
    else .next s
  else .next s

end Sys2Proof.Machine
end

