-- ==== Sys2Proof/Machine/Stream.lean ====
section
/-!
DEFINITION. The meanings of the stream events EOS and STALL (spec/41_host_and_stream_events.md R104, R105, R107).
-/

namespace Sys2Proof.Machine

/-- `EOS` (R104): ends the run. At the root it is a clean end; a partial path is dropped with `strict` = 0 and
raises TruncatedStream with `strict` = 1. Not looked at outside RUN or while an emission is pending. -/
def execEos (s : State) : Host.Outcome State Fault Refusal :=
  if s.phase == .run && !emit s then
    if s.cursor == Config.root then .next (s.setPhase .done)
    else if s.strict then .next s.raiseTruncatedStream
    else .next ((s.setPhase .done).setCursor Config.root)
  else .next s

/-- `STALL` (R105, R107): nothing changes. -/
def execStall (s : State) : Host.Outcome State Fault Refusal := .next s

end Sys2Proof.Machine
end

