-- ==== Sys2Proof/Machine/Dispatch.lean ====
section
/-!
DEFINITION. The dispatch of an instruction to its meaning, one arm per constructor of `Instr`.
-/

namespace Sys2Proof.Machine

def exec (i : Instr) (s : State) : Host.Outcome State Fault Refusal :=
  match i with
  | .node left right => Sys2Proof.Machine.execNode left right s
  | .leaf _ sym => Sys2Proof.Machine.execLeaf sym s
  | .reset => Sys2Proof.Machine.execReset s
  | .wrnode index word => Sys2Proof.Machine.execWrnode index word s
  | .start strictI => Sys2Proof.Machine.execStart strictI s
  | .eos => Sys2Proof.Machine.execEos s
  | .stall => Sys2Proof.Machine.execStall s

end Sys2Proof.Machine
end

