-- ==== Sys2Proof/Machine/Cycle.lean ====
section
/-!
DEFINITION. What one cycle runs: the node word fetched at the cursor, or the port event of the cycle, in the order of
spec/40_decode_step.md R80 and spec/60_exceptions.md R126; and the placing of a word where the next step fetches.
-/

namespace Sys2Proof.Machine

/-- The instruction at the cursor (R80, R61). -/
def fetch (s : State) : Instr := decode s.node

/-- The events of a cycle outside RUN (R100): WRNODE and START may both act (R103); with neither, the phase rests
(R107). -/
def hostEvents (p : Inputs) : List Instr :=
  match p.twEn, p.start with
  | true, true => [.wrnode p.twAddr p.twData, .start p.strictI]
  | true, false => [.wrnode p.twAddr p.twData]
  | false, true => [.start p.strictI]
  | false, false => [.stall]

/-- The choice of a cycle in RUN (R80): a pending emission or a bit on offer runs the fetched node word; else the
end of the stream; else the stall. -/
def runEvents (s : State) (p : Inputs) : List Instr :=
  if emit s || p.bitValid then [fetch s]
  else if p.bitEos then [.eos]
  else [.stall]

/-- What the cycle runs (R126): RESET before everything. -/
def cycleInstrs (s : State) : List Instr :=
  if s.inputs.rst then [.reset]
  else if s.phase == .run then runEvents s s.inputs
  else hostEvents s.inputs

/-- Run the instructions of one cycle. Only WRNODE with START is more than one; the two write different state, so
one after the other is both at one edge (R103, log 8). -/
def execAll : List Instr → State → Host.Outcome State Fault Refusal
  | [], s => .next s
  | i :: is, s =>
    match exec i s with
    | .next t => execAll is t
    | .fault f => .fault f
    | .refused r => .refused r

/-- What every step adds around its instructions: the next cycle's port values come up. -/
def closeCycle : Host.Outcome State Fault Refusal → Host.Outcome State Fault Refusal
  | .next t => .next t.endCycle
  | .fault f => .fault f
  | .refused r => .refused r

/-- One rising edge: the cycle's instructions, then the end of the cycle. -/
def cycleStep (s : State) : Host.Outcome State Fault Refusal := closeCycle (execAll (cycleInstrs s) s)

/-- The port values with which a fetched word acts: a bit (0) on offer and the sink ready (log 10). -/
def fetchInputs : Inputs := { bitValid := true, symReady := true }

/-- The state with a node word placed where the next step fetches: at the cursor, in phase RUN, with a bit on offer
and the sink ready in this cycle (log 10). It stands for a load by WRNODE, a START, and the stream. -/
def State.placeNode (s : State) (w : NodeWord) : State :=
  { s with phase := .run, mem := s.mem.write s.cursor w, pins := fetchInputs :: s.pins.tail }

end Sys2Proof.Machine
end

