-- ==== Sys2Proof/Machine/Step.lean ====
section
/-!
DEFINITION. One step of the machine: one rising edge of the clock (spec/00_scope.md R9).
-/

namespace Sys2Proof.Machine

def step (s : State) : Host.Outcome State Fault Refusal := cycleStep s

/-- The state with an opcode-table word stored where `step` fetches its next instruction. -/
def State.withFetchWord (s : State) (nbits w : Nat) : State := s.placeNode (BitVec.ofNat 19 (w % 2 ^ nbits))

end Sys2Proof.Machine
end

