-- ==== Sys2Proof/Machine/Environment.lean ====
section
/-!
DEFINITION. Runs under an environment: several steps, the duties of bit source, sink and host
(spec/70_reset_and_hazards.md R150, R151, R153) as conditions on what State's script drives, and the count of cycles
that are no stall (R152, R157).
-/

namespace Sys2Proof.Machine

/-- `k` steps, staying where a step would stop. -/
def runCycles : Nat → State → State
  | 0, s => s
  | k + 1, s =>
    match step s with
    | .next t => runCycles k t
    | .fault _ => s
    | .refused _ => s

/-- A bit is consumed in this cycle (R29). -/
def consumesBit (s : State) : Bool := bitReady s && s.inputs.bitValid

/-- A symbol is taken in this cycle (R29). -/
def takesSymbol (s : State) : Bool := symValid s && s.inputs.symReady

/-- EOS acts in this cycle (R104). -/
def seesEos (s : State) : Bool := bitReady s && !s.inputs.bitValid && s.inputs.bitEos

/-- The run has ended (R158). -/
def runEnded (s : State) : Bool := s.phase == .done || s.phase == .error

/-- What the decoder meets of R150 items 1 and 3 in this cycle, with `rest` the bits of the stream not yet consumed: a
bit that is consumed is the next one, and the end of the stream is not seen before every bit is consumed. The whole
duty is `sourceOwes`. -/
def sourceObeys (rest : List Bool) (s : State) : Bool :=
  if consumesBit s then rest.head? == some s.inputs.bitData
  else if seesEos s then rest.isEmpty
  else true

/-- In this cycle the host keeps off (R153): no reset, and outside RUN no START and no WRNODE. In RUN these two are
ignored (R106) and may be anything. -/
def hostKeepsOff (s : State) : Bool :=
  !s.inputs.rst && (s.phase == .run || (!s.inputs.start && !s.inputs.twEn))

/-- The environment delivers the stream `rest` over `k` cycles, with any stalls of source and sink (R88). -/
def delivers : Nat → List Bool → State → Bool
  | 0, _, _ => true
  | k + 1, rest, s =>
    hostKeepsOff s && sourceObeys rest s &&
      delivers k (if consumesBit s then rest.tail else rest) (runCycles 1 s)

/-- This cycle is no stall of a run (R152): a bit is consumed, a symbol is taken, or EOS acts. -/
def activeCycle (s : State) : Bool := consumesBit s || takesSymbol s || seesEos s

/-- How many of the first `k` cycles are no stall. -/
def activeCycles : Nat → State → Nat
  | 0, _ => 0
  | k + 1, s => (if activeCycle s then 1 else 0) + activeCycles k (runCycles 1 s)

/-- R150 item 2: a bit on offer that is not consumed stays on offer in the next cycle, whose inputs are `next`. -/
def sourceHolds (s : State) (next : Inputs) : Bool :=
  if s.inputs.bitValid && !bitReady s then next.bitValid && next.bitData == s.inputs.bitData else true

/-- R150 item 1 in this cycle, with `rest` the bits of the stream not yet consumed: a bit that is consumed is the next
one. -/
def bitInOrder (rest : List Bool) (s : State) : Bool :=
  if consumesBit s then rest.head? == some s.inputs.bitData else true

/-- R150 item 3, the raising: `bit_eos` is 1 only with `bit_valid` = 0 and with every bit of the stream consumed, in
every cycle, whether the decoder looks at it or not. -/
def endRaised (rest : List Bool) (s : State) : Bool :=
  if s.inputs.bitEos then !s.inputs.bitValid && rest.isEmpty else true

/-- The step from `s` to `t` ends the run: DONE or ERROR is entered (R158), or a reset abandons it (R10). -/
def runEnds (s t : State) : Bool := s.phase == .run && t.phase != .run

/-- R150 item 3, the keeping, over the edge from `s` to `t`: an end that is shown, before START or in the run, is
shown in the next cycle too, unless the run has ended at this edge. DESIGN CHOICE (log 16): an end shown outside RUN is
read as the end of the run to come. One left standing from a run that has ended is asked nothing of, so `endHolds` is
not applied there: `sourceOwes` stops at the end of its run. -/
def endHolds (s t : State) : Bool :=
  if s.inputs.bitEos && !s.inputs.bitValid && !runEnds s t then t.inputs.bitEos && !t.inputs.bitValid else true

/-- R150 items 1 to 3 over at most `k` cycles, from the first in which the source may present the stream `rest` (before,
at or after START) to the cycle that ends its run; of the cycles after that nothing is asked (log 16). Item 4, progress, is no property of finitely many cycles (log 12). -/
def sourceOwes : Nat → List Bool → State → Bool
  | 0, _, _ => true
  | k + 1, rest, s =>
    bitInOrder rest s && endRaised rest s && sourceHolds s (runCycles 1 s).inputs && endHolds s (runCycles 1 s) &&
      (runEnds s (runCycles 1 s) || sourceOwes k (if consumesBit s then rest.tail else rest) (runCycles 1 s))

end Sys2Proof.Machine
end

