-- ==== Sys2Proof/Machine/Event.lean ====
section
/-!
DEFINITION. The event level (spec/00_scope.md R9): the function `decode(M, B, strict)` of spec/40_decode_step.md R88,
from a memory content, a bit list and the strict flag to the symbols and the outcome; and the Code Paths of an image
(spec/00_scope.md R10). It is called `decodeStream` here, since `decode` decodes a node word.
-/

namespace Sys2Proof.Machine

/-- The content of the node memory, as the event level sees it. -/
abbrev Image := NodeIndex → NodeWord

/-- The outcome of a run (R88). -/
inductive StreamOutcome where
  | done (consumed : Nat)
  | brokenTree (node : NodeIndex) (bit : Bool) (consumed : Nat)
  | truncatedStream (node : NodeIndex) (consumed : Nat)
  deriving DecidableEq, Repr

/-- The bits consumed when the run ended (R88). -/
def StreamOutcome.consumed : StreamOutcome → Nat
  | .done k => k
  | .brokenTree _ _ k => k
  | .truncatedStream _ k => k

/-- The loop of R88 from node `cur`, with the symbols `acc` so far and `k` bits consumed. -/
def decodeFrom (M : Image) (strict : Bool) : List Bool → NodeIndex → List SymbolByte → Nat → List SymbolByte × StreamOutcome
  | [], cur, acc, k =>
    if cur = 0#9 then (acc, .done k)
    else if strict then (acc, .truncatedStream cur k)
    else (acc, .done k)
  | b :: bs, cur, acc, k =>
    if tagBit (M cur) then (acc, .brokenTree cur b (k + 1))
    else
      let link := wordLink (M cur) b
      if isNull link then (acc, .brokenTree cur b (k + 1))
      else if tagBit (M link) then decodeFrom M strict bs 0#9 (acc ++ [symField (M link)]) (k + 1)
      else decodeFrom M strict bs link acc (k + 1)

/-- `decode(M, B, strict)` (R88). -/
def decodeStream (M : Image) (bits : List Bool) (strict : Bool) : List SymbolByte × StreamOutcome :=
  decodeFrom M strict bits 0#9 [] 0

/-- The cycles of a run that are no stall (R157): one for each bit consumed, one for each symbol handed over, and
one for the EOS; a BrokenTree ends the run in the cycle of its bit. -/
def runLength : List SymbolByte × StreamOutcome → Nat
  | (syms, .done k) => k + syms.length + 1
  | (syms, .truncatedStream _ k) => k + syms.length + 1
  | (syms, .brokenTree _ _ k) => k + syms.length

/-- The node a bit string leads to from a node, through NODE words and present links only. -/
def followPath (M : Image) : NodeIndex → List Bool → Option NodeIndex
  | cur, [] => some cur
  | cur, b :: bs =>
    if tagBit (M cur) || isNull (wordLink (M cur) b) then none
    else followPath M (wordLink (M cur) b) bs

/-- `path` is the Code Path of a leaf with this symbol (R10): the bit string from the root to it. DESIGN CHOICE (log 15):
only a non-empty one counts. R10 does not exclude the empty string, and R84 calls the Code Path of a root leaf empty;
that leaf is never emitted, so no stream carries its path. -/
def isCodePath (M : Image) (path : List Bool) (sym : SymbolByte) : Bool :=
  match path with
  | [] => false
  | b :: bs =>
    match followPath M 0#9 (b :: bs) with
    | some leafIdx => tagBit (M leafIdx) && symField (M leafIdx) == sym
    | none => false

end Sys2Proof.Machine
end

