-- ==== Sys2Proof/Machine/Listing.lean ====
section
/-!
DEFINITION. The listing of spec/41_host_and_stream_events.md R108, transcribed branch by branch as one function of
state and inputs, with the raw bit slices it writes. It is a second description of the machine, independent of
Decode, of the meanings and of the dispatch; `step` does not use it. It says nothing of the model's own fields.
-/

namespace Sys2Proof.Machine

/-- `step(state, in)` of R108. -/
def listingStep (s : State) (p : Inputs) : State :=
  let node := s.mem.read s.cursor
  let isLeaf := node.extractLsb' 18 1 = 1#1
  let emit := s.phase = .run ∧ isLeaf ∧ s.cursor ≠ 0#9
  if p.rst = true then
    { s with phase := .idle, cursor := 0#9, strict := false, err := .none, errBit := false }
  else if s.phase ≠ .run then
    let m := if p.twEn = true then s.mem.write p.twAddr p.twData else s.mem
    if p.start = true then
      { s with mem := m, phase := .run, cursor := 0#9, strict := p.strictI, err := .none, errBit := false }
    else { s with mem := m }
  else if emit then
    if p.symReady = true then { s with cursor := 0#9 } else s
  else if p.bitValid = true then
    let b := p.bitData
    let link := if b = false then node.extractLsb' 9 9 else node.extractLsb' 0 9
    if isLeaf ∨ link = 0#9 then { s with phase := .error, err := .brokenTree, errBit := b }
    else { s with cursor := link }
  else if p.bitEos = true then
    if s.cursor = 0#9 then { s with phase := .done }
    else if s.strict = false then { s with phase := .done, cursor := 0#9 }
    else { s with phase := .error, err := .truncatedStream, errBit := false }
  else s

/-- `out(state)` of R108, with the codes of R24. -/
def listingOut (s : State) : Outputs :=
  let node := s.mem.read s.cursor
  let emit := decide (s.phase = .run ∧ node.extractLsb' 18 1 = 1#1 ∧ s.cursor ≠ 0#9)
  { bitReady := decide (s.phase = .run) && !emit
    symValid := emit
    symData := if emit then node.extractLsb' 0 8 else 0#8
    busy := decide (s.phase = .run)
    done := decide (s.phase = .done)
    error := decide (s.phase = .error)
    errCode :=
      match s.err with
      | .none => 0#2
      | .brokenTree => 1#2
      | .truncatedStream => 2#2
    errBitO := s.errBit
    cursorO := s.cursor }

end Sys2Proof.Machine
end

