-- ==== Sys2Proof/Machine/Loader.lean ====
section
/-!
DEFINITION. The syntax of tree images (spec/30_encoding.md R68, R69), the reference loader (R70) and the reference
save (R71). They are software beside the hardware: `step` uses nothing of this file. They say which images the
examples of spec/95_test_vectors.md mean.
-/

namespace Sys2Proof.Machine

/-- A record of the persisted Code Table (R69): a symbol and its path string. -/
structure CodeRecord where
  sym : SymbolByte
  path : List Char
  deriving DecidableEq, Repr

/-- Why the loader fails (R70, spec/60_exceptions.md R123). -/
inductive LoadError where
  | malformedPath
  | conflictingPath
  /-- "tree does not fit": more than 512 nodes (D6). -/
  | doesNotFit
  deriving DecidableEq, Repr

/-- A tree image under construction: the entries written and the next free index. -/
structure LoadState where
  mem : Memory
  next : Nat
  deriving DecidableEq, Repr

/-- "an empty root placeholder" (R70). -/
def LoadState.empty : LoadState := { mem := Memory.write [] 0 (nodeWordOf 0 0), next := 1 }

/-- The bits of a path string; none where a character is neither 0 nor 1 (R70). -/
def pathBits : List Char → Option (List Bool)
  | [] => some []
  | c :: cs =>
    match pathBits cs with
    | none => none
    | some bs => if c = '0' then some (false :: bs) else if c = '1' then some (true :: bs) else none

/-- Set the link of entry `c` that bit `b` selects. -/
def setLink (m : Memory) (c : NodeIndex) (b : Bool) (target : NodeIndex) : Memory :=
  let w := m.read c
  m.write c (if b then nodeWordOf (leftField w) target else nodeWordOf target (rightField w))

/-- Write a new node at the next free index and link it from `c` (R70). -/
def addNode (st : LoadState) (c : NodeIndex) (b : Bool) (w : NodeWord) : Except LoadError LoadState :=
  if st.next = Config.depth then .error .doesNotFit
  else
    let i := BitVec.ofNat 9 st.next
    .ok { mem := setLink (st.mem.write i w) c b i, next := st.next + 1 }

/-- The inner loop of R70: attach a leaf below entry `c` along the bits. -/
def attachLeaf (sym : SymbolByte) : List Bool → NodeIndex → LoadState → Except LoadError LoadState
  | [], _, _ => .error .malformedPath
  | b :: bs, c, st =>
    if tagBit (st.mem.read c) then .error .conflictingPath
    else
      let link := wordLink (st.mem.read c) b
      match bs with
      | [] => if isNull link then addNode st c b (leafWordOf 0 sym) else .error .conflictingPath
      | b' :: bs' =>
        if isNull link then
          match addNode st c b (nodeWordOf 0 0) with
          | .ok st' => attachLeaf sym (b' :: bs') (BitVec.ofNat 9 st.next) st'
          | .error e => .error e
        else attachLeaf sym (b' :: bs') link st

/-- The loader over the records in order (R70). -/
def loadRecords : List CodeRecord → LoadState → Except LoadError LoadState
  | [], st => .ok st
  | r :: rs, st =>
    match pathBits r.path with
    | none => .error .malformedPath
    | some bs =>
      match attachLeaf r.sym bs 0 st with
      | .ok st' => loadRecords rs st'
      | .error e => .error e

/-- The image of a Code Table (R70); on a failure no image. -/
def loadImage (rs : List CodeRecord) : Except LoadError Memory :=
  match loadRecords rs LoadState.empty with
  | .ok st => .ok st.mem
  | .error e => .error e

/-- The traversal of R71 from a node, left before right, to a depth; the path so far stands in `path`. Started at a
root that is a LEAF it writes that leaf's record with an empty path, as R71's words say taken alone; the persisted
text cannot carry such a record (R70, U9), so `saveImage` does not start it there (log 13, DESIGN CHOICE). -/
def saveFrom (M : Image) : Nat → NodeIndex → List Char → List CodeRecord
  | 0, _, _ => []
  | depth + 1, cur, path =>
    let w := M cur
    if tagBit w then [{ sym := symField w, path := path }]
    else
      (if isNull (leftField w) then [] else saveFrom M depth (leftField w) (path ++ ['0'])) ++
        (if isNull (rightField w) then [] else saveFrom M depth (rightField w) (path ++ ['1']))

/-- The Code Table of an image that is a tree (R71). A tree of 512 nodes is less than 512 links deep. DESIGN CHOICE
(log 13): the one-leaf image is refused, `none`, as U9 of spec/93_implementation_defined.md says of persisting it and
as R70 says of its empty path; R71 itself does not name this case. -/
def saveImage (M : Image) : Option (List CodeRecord) :=
  if tagBit (M Config.root) then none else some (saveFrom M Config.depth Config.root [])

/-- The line pairs of the persisted text (R69). -/
def recordLines (rs : List CodeRecord) : List String :=
  rs.flatMap fun r => [toString r.sym.toNat, String.ofList r.path]

/-- A link in a node listing: `-` for the null link (R68). -/
def linkText (link : NodeIndex) : String := if isNull link then "-" else toString link.toNat

/-- The line of a node listing (R68). -/
def listingLine (i : NodeIndex) (w : NodeWord) : String :=
  toString i.toNat ++ ": " ++
    (if tagBit w then "LEAF " ++ toString (symField w).toNat
     else "NODE " ++ linkText (leftField w) ++ ", " ++ linkText (rightField w))

/-- The WRNODE cycles that load an image (spec/70_reset_and_hazards.md R143 item 2), one entry a cycle. -/
def loadCycles (m : Memory) : List Inputs :=
  m.map fun c => { twEn := true, twAddr := BitVec.ofNat 9 c.1, twData := c.2 }

end Sys2Proof.Machine
end

