-- ==== Sys2Proof/Safety.lean ====
section
/-!
DEFINITION. The terms claims are stated in: the invariant of spec/10_state.md R33, the well-formed image of
spec/70_reset_and_hazards.md R144, and which states are the same hardware.
-/

namespace Sys2Proof

open Sys2Proof.Machine

/-- The two states agree on all of the hardware's own state (R20); the model's own fields may differ. -/
def SameHardware (s t : State) : Prop :=
  s.phase = t.phase ∧ s.cursor = t.cursor ∧ s.strict = t.strict ∧ s.err = t.err ∧ s.errBit = t.errBit ∧ s.mem = t.mem

/-- The two states agree on the environment's records and script: everything but the hardware (log 1, log 4). -/
def SameEnvironment (s t : State) : Prop :=
  s.pins = t.pins ∧ s.cycle = t.cycle ∧ s.taken = t.taken ∧ s.consumed = t.consumed

/-- Some NODE word of the memory has a link equal to this index (R33 item 3). -/
def Linked (m : Memory) (i : NodeIndex) : Prop :=
  ∃ j b, tagBit (m.read j) = false ∧ wordLink (m.read j) b = i

/-- The invariant of R33, with the memory's canonical form and the rule of `err_bit` (R25) beside it. -/
structure Inv (s : State) : Prop where
  /-- R33 item 1. -/
  err_iff_error : s.err ≠ .none ↔ s.phase = .error
  /-- R33 item 2. -/
  resting_at_root : s.phase = .idle ∨ s.phase = .done → s.cursor = 0#9
  /-- R33 item 3, in phase RUN, where the memory is not written. -/
  cursor_linked : s.phase = .run → s.cursor ≠ 0#9 → Linked s.mem s.cursor
  /-- R25: `err_bit` is 1 only after a BrokenTree. -/
  err_bit_broken : s.errBit = true → s.err = .brokenTree
  /-- The memory is canonical (log 3). -/
  mem_wf : s.mem.wf

/-- An index the walk from the root can reach by non-null links (R144). -/
inductive Reachable (M : Image) : NodeIndex → Prop where
  | root : Reachable M 0#9
  | link (j : NodeIndex) (b : Bool) : Reachable M j → tagBit (M j) = false → wordLink (M j) b ≠ 0#9 →
      Reachable M (wordLink (M j) b)

/-- The image is well-formed (R144): the root is a NODE; every reachable NODE has both links; no index is the target
of two links of reachable NODEs; every reachable entry has been written. -/
structure WellFormedImage (m : Memory) : Prop where
  root_is_node : tagBit (m.read 0#9) = false
  links_present : ∀ j b, Reachable m.read j → tagBit (m.read j) = false → wordLink (m.read j) b ≠ 0#9
  one_parent : ∀ j b j' b', Reachable m.read j → Reachable m.read j' → tagBit (m.read j) = false →
    tagBit (m.read j') = false → wordLink (m.read j) b = wordLink (m.read j') b' → j = j' ∧ b = b'
  written : ∀ j, Reachable m.read j → m.written j = true

/-- A run on a well-formed image that has met no BrokenTree: in RUN the cursor is at a reachable node (R144). -/
structure OnTree (s : State) : Prop where
  image : WellFormedImage s.mem
  reachable : s.phase = .run → Reachable s.mem.read s.cursor
  not_broken : s.err ≠ .brokenTree

end Sys2Proof
end

