-- ==== Sys2Proof/Certificates/Slice0/Obligations.lean ====
section
/-!
DEFINITION. The statements for the provers. Each docstring names the rules of spec/ a statement formalises or rests
on. `step` and `exec` are the machine's; `s.inputs` are the input ports of the current cycle; `s.node` is the word
at the cursor.
-/

open Sys2Proof Sys2Proof.Machine

/-! ### Encoding -/

/-- R60, R61, R65: every instruction that is a node word has a word, which lies in its row of the opcode map and
decodes to it, with every operand at every value. -/
def Obligations.DecodeInvertsEncode : Prop :=
  ∀ i : Instr, i.wellFormed = true →
    ∃ w, encode i = some w ∧ some (w &&& opcodeMask) = opcodeMatch i ∧ decode w = i

/-- R61, R64: each of the 2^19 words decodes to a node word whose encoding is that very word, `rsv` included. -/
def Obligations.EncodeInvertsDecode : Prop :=
  ∀ w : NodeWord, (decode w).wellFormed = true ∧ encode (decode w) = some w

/-- R61: below 2^18 (bit 18 clear) a word is the NODE of its upper and lower nine bits; from 2^18 on it is the LEAF
of its low byte, with the ten bits between as `rsv`. -/
def Obligations.DecodeReadsTheFields : Prop :=
  ∀ n : Nat, n < 2 ^ 19 →
    decode (BitVec.ofNat 19 n) =
      if n < 2 ^ 18 then .node (BitVec.ofNat 9 (n / 2 ^ 9)) (BitVec.ofNat 9 (n % 2 ^ 9))
      else .leaf (BitVec.ofNat 10 (n / 2 ^ 8 % 2 ^ 10)) (BitVec.ofNat 8 (n % 2 ^ 8))

/-- R65: a word is the instruction of the row whose match its masked bits equal; the canonical encodings are
`(l << 9) + r` and `0x40000 + s`; nothing but the two node words has an encoding. -/
def Obligations.OpcodeMapDecidesTheRow : Prop :=
  (∀ w : NodeWord, (w &&& 0x40000#19 = 0x00000#19 ↔ ∃ l r, decode w = .node l r) ∧
    (w &&& 0x40000#19 = 0x40000#19 ↔ ∃ v c, decode w = .leaf v c)) ∧
  (∀ l r : NodeIndex, encode (.node l r) = some ((l.setWidth 19 <<< 9) + r.setWidth 19)) ∧
  (∀ c : SymbolByte, encode (.leaf 0#10 c) = some (0x40000#19 + c.setWidth 19)) ∧
  (∀ i : Instr, encode i = none ↔ (∀ l r, i ≠ .node l r) ∧ ∀ v c, i ≠ .leaf v c)

/-- Words written out from R60 decode to the instruction they stand for: `NODE 1, 2`, `NODE 7, 10`, `LEAF 102` and a
`LEAF 97` with every bit of `rsv` set. -/
def Obligations.SampleWordsDecode : Prop :=
  decode 0b0000000001000000010#19 = .node 1 2 ∧ decode 0b0000000111000001010#19 = .node 7 10 ∧
    decode 0b1000000000001100110#19 = .leaf 0 102 ∧ decode 0b1111111111101100001#19 = .leaf 0x3FF 97

/-! ### What a step runs -/

/-- R80 cases 1 to 4: in RUN, without reset, with an emission pending or a bit on offer, the word at the cursor
decodes to a well-formed instruction and the step is that instruction's `exec`, then the end of the cycle (the next
port values come up). -/
def Obligations.StepRunsTheFetchedInstruction : Prop :=
  ∀ (s : State) (i : Instr), s.inputs.rst = false → s.phase = .run →
    emit s = true ∨ s.inputs.bitValid = true → decode s.node = i →
    i.wellFormed = true ∧ step s = closeCycle (exec i s)

/-- R100, R103, R80 cases 5 and 6, R107: in every other cycle the step is the `exec` of the port's event: RESET
whatever else; in RUN with neither emission nor bit, EOS or the stall; outside RUN WRNODE, START, both, or the
stall; then the end of the cycle. -/
def Obligations.StepRunsThePortEvent : Prop :=
  ∀ s : State,
    (s.inputs.rst = true → step s = closeCycle (exec .reset s)) ∧
    (s.inputs.rst = false → s.phase = .run → emit s = false → s.inputs.bitValid = false →
      step s = closeCycle (exec (if s.inputs.bitEos then .eos else .stall) s)) ∧
    (s.inputs.rst = false → s.phase ≠ .run →
      (s.inputs.twEn = true → s.inputs.start = false →
        step s = closeCycle (exec (.wrnode s.inputs.twAddr s.inputs.twData) s)) ∧
      (s.inputs.twEn = false → s.inputs.start = true → step s = closeCycle (exec (.start s.inputs.strictI) s)) ∧
      (s.inputs.twEn = true → s.inputs.start = true →
        ∃ t, exec (.wrnode s.inputs.twAddr s.inputs.twData) s = .next t ∧
          step s = closeCycle (exec (.start s.inputs.strictI) t)) ∧
      (s.inputs.twEn = false → s.inputs.start = false → step s = closeCycle (exec .stall s)))

/-- R108: in every state and on every input the step answers a next state, whose hardware is what `step` of the
listing gives, and the outputs are what `out` of the listing gives. Beside it, the model's own fields: a symbol is
recorded as taken, and a bit as consumed, exactly in the cycles R29 says, and the script moves on. That a bit on
offer at an edge with `rst` = 1 is recorded as consumed too is the model's choice (log 4, DEDUCED from R29). -/
def Obligations.StepIsTheListing : Prop :=
  ∀ s : State, out s = listingOut s ∧ ∃ t, step s = .next t ∧ SameHardware t (listingStep s s.inputs) ∧
    t.taken = s.taken ++ (if (out s).symValid && s.inputs.symReady then [(out s).symData] else []) ∧
    t.consumed = s.consumed ++ (if (out s).bitReady && s.inputs.bitValid then [s.inputs.bitData] else []) ∧
    t.pins = s.pins.tail ∧ t.cycle = s.cycle + 1

/-! ### What each instruction does -/

/-- R81: NODE with a bit on offer and the selected link present moves the cursor to that link; the bit is consumed;
nothing else changes. Where it is the fetched word, `bit_ready` is 1 and `sym_valid` is 0 in this cycle. -/
def Obligations.NodeFollowsTheSelectedLink : Prop :=
  ∀ (l r : NodeIndex) (s : State), s.phase = .run → s.inputs.bitValid = true →
    (if s.inputs.bitData then r else l) ≠ 0#9 →
    exec (.node l r) s =
      .next { s with cursor := if s.inputs.bitData then r else l, consumed := s.consumed ++ [s.inputs.bitData] } ∧
    (decode s.node = .node l r → (out s).bitReady = true ∧ (out s).symValid = false)

/-- R82: NODE with a bit on offer and the selected link missing raises BrokenTree with that bit; the bit is consumed,
the cursor stays, nothing is emitted. Where it is the fetched word, `bit_ready` is 1 and `sym_valid` is 0. -/
def Obligations.NodeWithMissingLinkRaisesBrokenTree : Prop :=
  ∀ (l r : NodeIndex) (s : State), s.phase = .run → s.inputs.bitValid = true →
    (if s.inputs.bitData then r else l) = 0#9 →
    (∃ t, exec (.node l r) s = .next t ∧
      t = { s with phase := .error, err := .brokenTree, errBit := s.inputs.bitData,
                   consumed := s.consumed ++ [s.inputs.bitData] } ∧
      (out t).error = true ∧ (out t).errCode = 1 ∧ (out t).errBitO = s.inputs.bitData ∧ (out t).cursorO = s.cursor) ∧
    (decode s.node = .node l r → (out s).bitReady = true ∧ (out s).symValid = false)

/-- R83: LEAF at a cursor other than 0 offers its symbol and consumes no bit; taken by the sink, the cursor returns
to the root and no emission is pending; not taken, nothing changes. `rsv` does not matter (R64). -/
def Obligations.LeafHandsOverItsSymbol : Prop :=
  ∀ (v : Reserved) (c : SymbolByte) (s : State), s.phase = .run → s.cursor ≠ 0#9 →
    (s.inputs.symReady = true → ∃ t, exec (.leaf v c) s = .next t ∧
      t = { s with cursor := 0#9, taken := s.taken ++ [c] } ∧ emit t = false) ∧
    (s.inputs.symReady = false → exec (.leaf v c) s = .next s) ∧
    (decode s.node = .leaf v c → (out s).symValid = true ∧ (out s).symData = c ∧ (out s).bitReady = false)

/-- R84: LEAF at index 0 is never emitted. A bit on offer is consumed and raises BrokenTree, and `error` becomes 1;
else the end of the stream ends the run DONE; else nothing changes. Where it is the fetched word, `sym_valid` is 0
and `bit_ready` 1. -/
def Obligations.RootLeafIsNeverEmitted : Prop :=
  ∀ (v : Reserved) (c : SymbolByte) (s : State), s.phase = .run → s.cursor = 0#9 →
    (s.inputs.bitValid = true → ∃ t, exec (.leaf v c) s = .next t ∧
      t = { s with phase := .error, err := .brokenTree, errBit := s.inputs.bitData,
                   consumed := s.consumed ++ [s.inputs.bitData] } ∧ (out t).error = true) ∧
    (s.inputs.bitValid = false → s.inputs.bitEos = true → exec (.leaf v c) s = .next { s with phase := .done }) ∧
    (s.inputs.bitValid = false → s.inputs.bitEos = false → exec (.leaf v c) s = .next s) ∧
    (decode s.node = .leaf v c → (out s).symValid = false ∧ (out s).bitReady = true)

/-- The model's choice for a meaning called where its rule does not apply (log 11): a node word outside RUN, a NODE
without a bit, and an EOS outside RUN or behind a pending emission change nothing (R107, R105, R104). -/
def Obligations.NothingActsOutOfPlace : Prop :=
  ∀ s : State,
    (s.phase ≠ .run → ∀ (l r : NodeIndex) (v : Reserved) (c : SymbolByte),
      exec (.node l r) s = .next s ∧ exec (.leaf v c) s = .next s) ∧
    (s.inputs.bitValid = false → ∀ l r : NodeIndex, exec (.node l r) s = .next s) ∧
    (s.phase ≠ .run ∨ emit s = true → exec .eos s = .next s)

/-- R101: outside RUN, WRNODE stores its word at its index: that index reads the word, every other index reads as
before, and nothing else changes, the fault report included. In RUN the write is not performed and leaves no trace. -/
def Obligations.WrnodeStoresOneWord : Prop :=
  ∀ (i : NodeIndex) (v : NodeWord) (s : State),
    (s.phase ≠ .run → ∃ t, exec (.wrnode i v) s = .next t ∧ t = { s with mem := t.mem } ∧
      t.mem.read i = v ∧ t.mem.written i = true ∧
      ∀ j, j ≠ i → t.mem.read j = s.mem.read j ∧ t.mem.written j = s.mem.written j) ∧
    (s.phase = .run → exec (.wrnode i v) s = .next s)

/-- R102: outside RUN, from IDLE, DONE and ERROR alike, START begins a run at the root with the fault report
cleared and `strict` copied; memory is not changed; `busy` becomes 1, `done` and `error` 0; the next fetch is of
`mem[0]`. In RUN it is ignored. -/
def Obligations.StartBeginsARun : Prop :=
  ∀ (b : Bool) (s : State),
    (s.phase ≠ .run → ∃ t, exec (.start b) s = .next t ∧
      t = { s with phase := .run, cursor := 0#9, strict := b, err := .none, errBit := false } ∧
      (out t).busy = true ∧ (out t).done = false ∧ (out t).error = false ∧ fetch t = decode (s.mem.read 0#9)) ∧
    (s.phase = .run → exec (.start b) s = .next s)

/-- R104: EOS in RUN with no emission pending. At the root the run is DONE; with `strict` = 0 a partial path is
dropped and the run is DONE at the root; with `strict` = 1 it raises TruncatedStream and the cursor stays. `busy`
becomes 0 and `done` or `error` 1. It is what a step does without reset when `bit_valid` is 0 and `bit_eos` is 1;
behind a pending emission it does nothing. -/
def Obligations.EosEndsTheRun : Prop :=
  (∀ s : State, emit s = true → exec .eos s = .next s) ∧
  ∀ s : State, s.phase = .run → emit s = false →
    (∃ t, exec .eos s = .next t ∧ (out t).busy = false ∧
      t = (if s.cursor = 0#9 then { s with phase := .done }
           else if s.strict then { s with phase := .error, err := .truncatedStream, errBit := false }
           else { s with phase := .done, cursor := 0#9 }) ∧
      ((out t).error = true ↔ s.cursor ≠ 0#9 ∧ s.strict = true) ∧ (out t).done = !(out t).error) ∧
    (s.inputs.rst = false → s.inputs.bitValid = false → s.inputs.bitEos = true → step s = closeCycle (exec .eos s))

/-- R105: STALL changes nothing. In RUN, without reset, a cycle with no emission, no bit and no end of stream changes
nothing but the script, and `bit_ready` is 1 in it; nor does a cycle whose pending emission the sink does not take. -/
def Obligations.StallChangesNothing : Prop :=
  ∀ s : State, exec .stall s = .next s ∧
    (s.inputs.rst = false → s.phase = .run → emit s = false → s.inputs.bitValid = false →
      s.inputs.bitEos = false → (out s).bitReady = true ∧ step s = .next s.endCycle) ∧
    (s.inputs.rst = false → emit s = true → s.inputs.symReady = false → step s = .next s.endCycle)

/-- R140, R31: RESET in any phase and with any other inputs puts the five registers at their reset values and keeps
the memory; in the cycle after, every output is 0. -/
def Obligations.ResetClearsTheRegisters : Prop :=
  ∀ s : State,
    (∃ t, exec .reset s = .next t ∧ SameHardware t { State.reset with mem := s.mem }) ∧
    (s.inputs.rst = true → ∃ t, step s = .next t ∧ SameHardware t { State.reset with mem := s.mem } ∧
      out t = { bitReady := false, symValid := false, symData := 0, busy := false, done := false, error := false,
                errCode := 0, errBitO := false, cursorO := 0 })

/-- R142, R29: a symbol on offer that the sink is ready for in the cycle of the reset edge is taken, and one that it
is not ready for is withdrawn. -/
def Obligations.ResetKeepsTheHandover : Prop :=
  ∀ s : State, s.inputs.rst = true → emit s = true →
    ∃ t, step s = .next t ∧ t.phase = .idle ∧ emit t = false ∧ t.consumed = s.consumed ∧
      t.taken = if s.inputs.symReady then s.taken ++ [symField s.node] else s.taken

/-- R103: outside RUN, a WRNODE and a START at one edge both act, and the run's first fetch sees the written word. -/
def Obligations.WrnodeWithStartBothAct : Prop :=
  ∀ s : State, s.inputs.rst = false → s.phase ≠ .run → s.inputs.twEn = true → s.inputs.start = true →
    ∃ t, step s = .next t ∧ t.phase = .run ∧ t.cursor = 0#9 ∧ t.strict = s.inputs.strictI ∧ t.err = .none ∧
      t.errBit = false ∧ t.mem.read s.inputs.twAddr = s.inputs.twData ∧
      (∀ j, j ≠ s.inputs.twAddr → t.mem.read j = s.mem.read j) ∧
      (s.inputs.twAddr = 0#9 → fetch t = decode s.inputs.twData)

/-! ### Frames and whole-machine rules -/

/-- The frame of every instruction: none touches the script or the cycle count; none but WRNODE changes what any
index reads as; none but START and RESET changes `strict`; WRNODE and STALL change no register and no record; START
changes no record; only NODE, LEAF and RESET can change the records. -/
def Obligations.FrameOfEveryInstruction : Prop :=
  ∀ (i : Instr) (s t : State), exec i s = .next t →
    (t.pins = s.pins ∧ t.cycle = s.cycle) ∧
    ((∀ a w, i ≠ .wrnode a w) → ∀ a, t.mem.read a = s.mem.read a ∧ t.mem.written a = s.mem.written a) ∧
    ((∀ b, i ≠ .start b) → i ≠ .reset → t.strict = s.strict) ∧
    ((∃ a w, i = .wrnode a w) ∨ i = .stall → t = { s with mem := t.mem }) ∧
    ((∀ l r, i ≠ .node l r) → (∀ v c, i ≠ .leaf v c) → i ≠ .reset → t.taken = s.taken ∧ t.consumed = s.consumed) ∧
    (t.phase ≠ .error → (∀ b, i ≠ .start b) → i ≠ .reset → t.err = s.err ∧ t.errBit = s.errBit)

/-- R85: the complete list of writes to the cursor: RESET, an accepted START, a bit consumed at a NODE whose selected
link is present, a symbol taken, and a non-strict EOS off the root. The first five clauses give the value each writes;
the last says that no other cycle changes the cursor. -/
def Obligations.CursorWritesAreTheListed : Prop :=
  ∀ s t : State, step s = .next t →
    (s.inputs.rst = true → t.cursor = 0#9) ∧
    (s.inputs.rst = false → s.phase ≠ .run → s.inputs.start = true → t.cursor = 0#9) ∧
    (∀ l r, s.inputs.rst = false → s.phase = .run → decode s.node = .node l r → s.inputs.bitValid = true →
      (if s.inputs.bitData then r else l) ≠ 0#9 → t.cursor = if s.inputs.bitData then r else l) ∧
    (∀ v c, s.inputs.rst = false → s.phase = .run → decode s.node = .leaf v c → s.cursor ≠ 0#9 →
      s.inputs.symReady = true → t.cursor = 0#9) ∧
    (s.inputs.rst = false → s.phase = .run → emit s = false → s.inputs.bitValid = false → s.inputs.bitEos = true →
      s.strict = false → t.cursor = 0#9) ∧
    (t.cursor ≠ s.cursor →
    (s.inputs.rst = true ∧ t.cursor = 0#9) ∨
    (s.inputs.rst = false ∧ s.phase ≠ .run ∧ s.inputs.start = true ∧ t.cursor = 0#9) ∨
    (∃ l r, s.inputs.rst = false ∧ s.phase = .run ∧ decode s.node = .node l r ∧ s.inputs.bitValid = true ∧
      t.cursor = (if s.inputs.bitData then r else l) ∧ t.cursor ≠ 0#9) ∨
    (∃ v c, s.inputs.rst = false ∧ s.phase = .run ∧ decode s.node = .leaf v c ∧ s.cursor ≠ 0#9 ∧
      s.inputs.symReady = true ∧ t.cursor = 0#9 ∧ t.taken = s.taken ++ [c]) ∨
    (s.inputs.rst = false ∧ s.phase = .run ∧ emit s = false ∧ s.inputs.bitValid = false ∧ s.inputs.bitEos = true ∧
      s.strict = false ∧ t.cursor = 0#9 ∧ t.phase = .done))

/-- R22: the transitions of `phase`. A step that changes it goes to IDLE by RESET; from a resting phase to RUN by
START; from RUN to DONE by EOS; from RUN to ERROR by a fault. -/
def Obligations.PhaseTransitionsAreTheListed : Prop :=
  ∀ s t : State, step s = .next t → t.phase ≠ s.phase →
    (t.phase = .idle ∧ s.inputs.rst = true) ∨
    (t.phase = .run ∧ s.phase ≠ .run ∧ s.inputs.rst = false ∧ s.inputs.start = true) ∨
    (t.phase = .done ∧ s.phase = .run ∧ s.inputs.rst = false ∧ seesEos s = true ∧ t.cursor = 0#9) ∨
    (t.phase = .error ∧ s.phase = .run ∧ s.inputs.rst = false ∧
      (consumesBit s = true ∧ t.err = .brokenTree ∨ seesEos s = true ∧ s.strict = true ∧ t.err = .truncatedStream))

/-- R120, R124, R125: every entry into ERROR, from every other phase. It happens in RUN with no emission pending.
Either a bit is consumed whose link is missing, or at a root leaf: code 1, that bit recorded; or a strict run's
stream ends off the root: code 2, 0 recorded. Cursor, strict, memory and the symbols taken are kept; in the next
cycle `error` is 1 and `busy`, `bit_ready` and `sym_valid` are 0. -/
def Obligations.FaultEntryIsPrecise : Prop :=
  ∀ s t : State, step s = .next t → s.phase ≠ .error → t.phase = .error →
    s.phase = .run ∧ s.inputs.rst = false ∧ emit s = false ∧
    t.cursor = s.cursor ∧ t.strict = s.strict ∧ t.mem = s.mem ∧ t.taken = s.taken ∧
    ((s.inputs.bitValid = true ∧ t.err = .brokenTree ∧ t.errBit = s.inputs.bitData ∧
        t.consumed = s.consumed ++ [s.inputs.bitData] ∧
        ((∃ v c, decode s.node = .leaf v c ∧ s.cursor = 0#9) ∨
          ∃ l r, decode s.node = .node l r ∧ (if s.inputs.bitData then r else l) = 0#9)) ∨
      (s.inputs.bitValid = false ∧ s.inputs.bitEos = true ∧ s.strict = true ∧ s.cursor ≠ 0#9 ∧
        t.err = .truncatedStream ∧ t.errBit = false ∧ t.consumed = s.consumed)) ∧
    (out t).error = true ∧ (out t).busy = false ∧ (out t).bitReady = false ∧ (out t).symValid = false

/-- R128, R107, R51: ERROR is left only by START or RESET; until then a step keeps the cursor, the code and the bit,
consumes no bit and takes no symbol, and only a WRNODE changes the memory. -/
def Obligations.ErrorIsLeftOnlyByStartOrReset : Prop :=
  ∀ s t : State, step s = .next t → s.phase = .error → s.inputs.rst = false → s.inputs.start = false →
    t.phase = .error ∧ t.cursor = s.cursor ∧ t.err = s.err ∧ t.errBit = s.errBit ∧ t.strict = s.strict ∧
      t.taken = s.taken ∧ t.consumed = s.consumed ∧ (s.inputs.twEn = false → t.mem = s.mem)

/-- R23, R24, R25: `strict` changes only by RESET or an accepted START; `err` and `err_bit` change only by these or
by the entry of a fault. -/
def Obligations.ControlRegistersChangeOnlyAsListed : Prop :=
  ∀ s t : State, step s = .next t →
    (t.strict ≠ s.strict → s.inputs.rst = true ∨ s.phase ≠ .run ∧ s.inputs.start = true) ∧
    (t.err ≠ s.err ∨ t.errBit ≠ s.errBit →
      s.inputs.rst = true ∨ (s.phase ≠ .run ∧ s.inputs.start = true) ∨ (s.phase = .run ∧ t.phase = .error))

/-- R43, R26, R50: what an index reads as changes only by a WRNODE of that index, outside RUN and without reset, and
then to the word written. So an entry never written keeps its word, and no decode step, reset or end of a run
changes the memory. -/
def Obligations.MemoryChangesOnlyByWrnode : Prop :=
  ∀ (s t : State) (a : NodeIndex), step s = .next t →
    t.mem.read a ≠ s.mem.read a ∨ t.mem.written a ≠ s.mem.written a →
    s.inputs.rst = false ∧ s.phase ≠ .run ∧ s.inputs.twEn = true ∧ s.inputs.twAddr = a ∧
      t.mem.read a = s.inputs.twData ∧ t.mem.written a = true

/-- R33 item 6, R47: over any number of cycles of one run the memory is the same data, whatever host, source and
sink drive. -/
def Obligations.MemoryIsConstantDuringARun : Prop :=
  ∀ (k : Nat) (s : State), (∀ j, j < k → (runCycles j s).phase = .run) → (runCycles k s).mem = s.mem

/-- R106: in RUN, two inputs that differ only in `start`, `strict_i` and the node write port give the same step; and
a run is abandoned (its phase becomes IDLE) only by a reset. -/
def Obligations.RunIgnoresTheHostPort : Prop :=
  ∀ s : State, s.phase = .run →
    (∀ (p q : Inputs) (ps : List Inputs), p.rst = q.rst → p.bitValid = q.bitValid → p.bitData = q.bitData →
      p.bitEos = q.bitEos → p.symReady = q.symReady →
      step { s with pins := p :: ps } = step { s with pins := q :: ps }) ∧
    ∀ t, step s = .next t → t.phase = .idle → s.inputs.rst = true

/-- R107, R28: outside RUN, two inputs that differ only in the stream and sink ports give the same step; no bit is
consumed and no symbol offered; and over any number of cycles with no reset, START or WRNODE nothing changes, the
outputs included, but the script. -/
def Obligations.RestIgnoresTheStreamPorts : Prop :=
  ∀ (s : State) (p q : Inputs) (ps : List Inputs), s.phase ≠ .run →
    (p.rst = q.rst → p.start = q.start → p.strictI = q.strictI → p.twEn = q.twEn → p.twAddr = q.twAddr →
      p.twData = q.twData → step { s with pins := p :: ps } = step { s with pins := q :: ps }) ∧
    (out s).bitReady = false ∧ (out s).symValid = false ∧
    ∀ k : Nat, (∀ j, j < k → (runCycles j s).inputs.rst = false ∧ (runCycles j s).inputs.start = false ∧
        (runCycles j s).inputs.twEn = false) →
      SameHardware (runCycles k s) s ∧ out (runCycles k s) = out s ∧
        (runCycles k s).taken = s.taken ∧ (runCycles k s).consumed = s.consumed

/-- R9, R29, R32: the next hardware and the outputs are functions of the hardware and of this cycle's inputs. Two
states with the same hardware show the same outputs, and under the same inputs step to the same hardware, whatever
the records, the cycle count and the rest of the script: there is no hidden state. -/
def Obligations.HardwareHasNoHiddenState : Prop :=
  ∀ s s' t t' : State, SameHardware s s' →
    out s = out s' ∧
    (s.inputs = s'.inputs → step s = .next t → step s' = .next t' → SameHardware t t')

/-- R126: RESET wins over everything else in its cycle; in RUN a pending emission wins over the stream: no bit is
consumed and EOS is not looked at. -/
def Obligations.PriorityWithinACycle : Prop :=
  ∀ s t : State, step s = .next t →
    (s.inputs.rst = true → t.phase = .idle ∧ t.err = .none ∧ t.mem = s.mem) ∧
    (emit s = true → s.inputs.rst = false → t.phase = .run ∧ t.consumed = s.consumed ∧ t.err = s.err ∧
      (s.inputs.symReady = true → t.cursor = 0#9 ∧ t.taken = s.taken ++ [symField s.node]) ∧
      (s.inputs.symReady = false → t.cursor = s.cursor ∧ t.taken = s.taken))

/-! ### Outputs -/

/-- R30: exactly one of `busy`, `done` and `error` is 1 in RUN, DONE and ERROR, none in IDLE; R29: `bit_ready` and
`sym_valid` are never 1 together and only in RUN, where one of them is; R33 item 5: the error code is never 3. -/
def Obligations.StatusOutputsDecodeThePhase : Prop :=
  ∀ s : State,
    ((out s).busy, (out s).done, (out s).error) =
      (match s.phase with
        | .idle => (false, false, false)
        | .run => (true, false, false)
        | .done => (false, true, false)
        | .error => (false, false, true)) ∧
    ((out s).bitReady || (out s).symValid) = (out s).busy ∧ ((out s).bitReady && (out s).symValid) = false ∧
    ((out s).symValid = false → (out s).symData = 0) ∧ (out s).errCode ≠ 3

/-- R29: while `sym_valid` stays 1, `sym_data` does not change: without a reset, a symbol on offer that is not taken
is on offer in the next cycle, over any number of cycles. -/
def Obligations.PendingSymbolIsHeld : Prop :=
  ∀ (k : Nat) (s : State), (out s).symValid = true →
    (∀ j, j < k → (runCycles j s).inputs.rst = false ∧ (runCycles j s).inputs.symReady = false) →
    out (runCycles k s) = out s ∧ SameHardware (runCycles k s) s ∧ (runCycles k s).taken = s.taken

/-- R29 with R27: the output ports as functions of the registers and of the word at the cursor, in raw bits. -/
def Obligations.OutputPortsFollowTheState : Prop :=
  ∀ s : State,
    ((out s).symValid = true ↔ s.phase = .run ∧ (s.mem.read s.cursor).toNat / 2 ^ 18 = 1 ∧ s.cursor ≠ 0#9) ∧
    ((out s).bitReady = true ↔ s.phase = .run ∧ (out s).symValid = false) ∧
    (out s).symData.toNat = (if (out s).symValid then (s.mem.read s.cursor).toNat % 2 ^ 8 else 0) ∧
    ((out s).busy = true ↔ s.phase = .run) ∧ ((out s).done = true ↔ s.phase = .done) ∧
    ((out s).error = true ↔ s.phase = .error) ∧ (out s).errBitO = s.errBit ∧ (out s).cursorO = s.cursor ∧
    (out s).errCode = (match s.err with
      | .none => 0
      | .brokenTree => 1
      | .truncatedStream => 2)

/-- R86, R150 item 2: a bit on offer that the decoder is not ready for is not lost. If the source holds it until a
cycle that consumes a bit, exactly that bit is consumed, once. Where that last cycle has `rst` = 1, that its bit is
recorded as consumed is the model's choice (log 4, DEDUCED from R29). -/
def Obligations.HeldBitIsConsumedOnce : Prop :=
  ∀ (k : Nat) (s : State), s.inputs.bitValid = true →
    (∀ j, j < k → consumesBit (runCycles j s) = false ∧
      sourceHolds (runCycles j s) (runCycles (j + 1) s).inputs = true) →
    consumesBit (runCycles k s) = true →
    (runCycles (k + 1) s).consumed = s.consumed ++ [s.inputs.bitData]

/-- R143 item 2, R47, R101: outside RUN, driving one WRNODE a cycle for each entry of a canonical image puts exactly
these entries into the memory, leaves every other entry and every register as it was, and uses up that script. -/
def Obligations.LoadedImageIsInMemory : Prop :=
  ∀ (m : Memory) (s : State) (ps : List Inputs), m.wf → s.phase ≠ .run → s.pins = loadCycles m ++ ps →
    let t := runCycles m.length s
    (∀ i, t.mem.read i = if m.written i then m.read i else s.mem.read i) ∧
      t.phase = s.phase ∧ t.cursor = s.cursor ∧ t.strict = s.strict ∧ t.err = s.err ∧ t.errBit = s.errBit ∧
      t.pins = ps

/-! ### The invariant -/

/-- R33 (items 1, 2, 3 in RUN, 4, 5, with R25 and the canonical memory): every step keeps the invariant, from every
state that has it. -/
def Obligations.EveryStepKeepsTheInvariant : Prop :=
  ∀ s t : State, Inv s → step s = .next t → Inv t

/-- R31, R33: the state after reset has the invariant, has its registers at the reset values, offers nothing and has
no entry written. -/
def Obligations.ResetStateMeetsTheInvariant : Prop :=
  Inv State.reset ∧ (State.reset.phase, State.reset.cursor, State.reset.strict, State.reset.err, State.reset.errBit) =
      (.idle, 0, false, .none, false) ∧
    ∀ i, State.reset.mem.written i = false

/-! ### The event level -/

/-- R86: no lookahead and no run-ahead. In a run, from a state at the root, over any stalls, the bits consumed are a
prefix of the stream, and the cursor with the symbols taken (and the one on offer) is what `decode` makes of exactly
that prefix. -/
def Obligations.CursorIsTheAppliedPrefix : Prop :=
  ∀ (s : State) (bits : List Bool) (k : Nat), s.phase = .run → s.cursor = 0#9 → delivers k bits s = true →
    (runCycles k s).phase = .run →
    ∃ n syms, n ≤ bits.length ∧ (runCycles k s).consumed = s.consumed ++ bits.take n ∧
      (runCycles k s).taken = s.taken ++ syms ∧
      decodeStream s.mem.read (bits.take n) true =
        if emit (runCycles k s) then (syms ++ [symData (runCycles k s)], .done n)
        else if (runCycles k s).cursor = 0#9 then (syms, .done n)
        else (syms, .truncatedStream (runCycles k s).cursor n)

/-- R88, R12: the cycle level agrees with `decode(M, B, strict)`. From a state outside RUN, after an accepted START
(with or without a WRNODE at the same edge), with the stream `bits` delivered under any pattern of stalls: the run
ends exactly when its cycles that are no stall are as many as `decode` needs, and when it has ended the symbols
taken, the bits consumed and the registers are those of `decode`, the memory unchanged. -/
def Obligations.RunAgreesWithDecode : Prop :=
  ∀ (s t : State) (bits : List Bool) (k : Nat), s.phase ≠ .run → s.inputs.rst = false → s.inputs.start = true →
    step s = .next t → delivers k bits t = true →
    let r := decodeStream t.mem.read bits s.inputs.strictI
    let u := runCycles k t
    activeCycles k t ≤ runLength r ∧ (runEnded u = true ↔ activeCycles k t = runLength r) ∧
    (runEnded u = true →
      u.taken = s.taken ++ r.1 ∧ u.consumed = s.consumed ++ bits.take r.2.consumed ∧
      u.strict = s.inputs.strictI ∧ u.mem = t.mem ∧
      (u.phase, u.cursor, u.err, u.errBit) =
        match r.2 with
        | .done _ => (.done, 0, .none, false)
        | .brokenTree node b _ => (.error, node, .brokenTree, b)
        | .truncatedStream node _ => (.error, node, .truncatedStream, false))

/-- R157: with no stalls, a run whose `n` bits decode to `m` symbols and end DONE is in RUN for the `n + m + 1`
cycles after the START cycle, and `done` is 1 in the cycle after them: cycle `n + m + 3`, the START cycle being 1. -/
def Obligations.RunLengthWithoutStalls : Prop :=
  ∀ (s t : State) (bits : List Bool) (syms : List SymbolByte) (n : Nat), s.phase ≠ .run → s.inputs.rst = false →
    s.inputs.start = true → step s = .next t →
    decodeStream t.mem.read bits s.inputs.strictI = (syms, .done n) →
    delivers (n + syms.length + 1) bits t = true →
    (∀ j, j < n + syms.length + 1 → activeCycle (runCycles j t) = true) →
    (∀ j, j < n + syms.length + 1 → (out (runCycles j t)).busy = true) ∧
      (out (runCycles (n + syms.length + 1) t)).done = true

/-- R152: a run stays in RUN, its hardware unchanged, as long as neither the source nor the sink answers: without a
reset, no image can make the machine move on its own. -/
def Obligations.NothingMovesWithoutTheEnvironment : Prop :=
  ∀ (k : Nat) (s : State), s.phase = .run →
    (∀ j, j < k → (runCycles j s).inputs.rst = false ∧ activeCycle (runCycles j s) = false) →
    SameHardware (runCycles k s) s ∧ (runCycles k s).taken = s.taken ∧ (runCycles k s).consumed = s.consumed

/-- R144: on a well-formed image no run raises BrokenTree: every step keeps "the image is well-formed, a run's
cursor is at a reachable node, and the error is not BrokenTree", but for a WRNODE that acts, which may change the
image. -/
def Obligations.WellFormedImageNeverBreaks : Prop :=
  ∀ s t : State, OnTree s → (s.phase ≠ .run → s.inputs.twEn = false) → step s = .next t → OnTree t

/-- R144: on a well-formed image every bit list splits into Code Paths followed by a rest that stops at a NODE (the
root, if it is empty), and `decode` answers the symbols of those paths in order with every bit consumed: DONE, or
TruncatedStream in a strict run whose rest is not empty. It never answers BrokenTree. -/
def Obligations.WellFormedImageSplitsEveryStream : Prop :=
  ∀ (m : Memory) (bits : List Bool) (strict : Bool), WellFormedImage m →
    ∃ (ps : List (List Bool × SymbolByte)) (rest : List Bool) (node : NodeIndex),
      (∀ p ∈ ps, isCodePath m.read p.1 p.2 = true) ∧ bits = (ps.map Prod.fst).flatten ++ rest ∧
      followPath m.read 0#9 rest = some node ∧ tagBit (m.read node) = false ∧
      decodeStream m.read bits strict =
        (ps.map Prod.snd,
          if rest ≠ [] ∧ strict = true then .truncatedStream node bits.length else .done bits.length)

/-- R144 and example X6 of spec/95_test_vectors.md: the concatenated Code Paths of any symbols of an image decode to
those symbols, in order, all bits consumed, strict or not. A Code Path is non-empty by the model's choice (log 15). -/
def Obligations.CodePathsDecodeToTheirSymbols : Prop :=
  ∀ (M : Image) (strict : Bool) (ps : List (List Bool × SymbolByte)),
    (∀ p ∈ ps, isCodePath M p.1 p.2 = true) →
    decodeStream M (ps.map Prod.fst).flatten strict = (ps.map Prod.snd, .done (ps.map Prod.fst).flatten.length)

/-- R144, R67: the Code Paths of an image are prefix-free. A Code Path is non-empty by the model's choice (log 15). -/
def Obligations.CodePathsArePrefixFree : Prop :=
  ∀ (M : Image) (p q : List Bool) (c d : SymbolByte), isCodePath M p c = true → isCodePath M q d = true →
    p <+: q → p = q ∧ c = d

/-- R71 and U8 of spec/93_implementation_defined.md: `decode` does not depend on how the nodes are numbered. If `f`
keeps the root, and only the root, at 0, and image `M'` holds at `f i` the node of `M` at `i` with its links renamed
by `f`, then both images decode alike, the node of a fault renamed. -/
def Obligations.DecodeIgnoresNodeNumbering : Prop :=
  ∀ (M M' : Image) (f : NodeIndex → NodeIndex), (∀ i, f i = 0#9 ↔ i = 0#9) →
    (∀ i, decode (M' (f i)) =
      match decode (M i) with
      | .node l r => .node (f l) (f r)
      | other => other) →
    ∀ (bits : List Bool) (strict : Bool),
      decodeStream M' bits strict =
        ((decodeStream M bits strict).1,
          match (decodeStream M bits strict).2 with
          | .done k => .done k
          | .brokenTree node b k => .brokenTree (f node) b k
          | .truncatedStream node k => .truncatedStream (f node) k)

/-- R122, R104, R88: `strict` changes nothing but the report of a partial path. Strict and non-strict decoding give
the same symbols and consume the same bits; non-strict decoding never reports TruncatedStream and reports the same
in every other case. -/
def Obligations.StrictOnlyAddsTruncation : Prop :=
  ∀ (M : Image) (bits : List Bool),
    (decodeStream M bits false).1 = (decodeStream M bits true).1 ∧
    (decodeStream M bits false).2 =
      match (decodeStream M bits true).2 with
      | .truncatedStream _ k => .done k
      | other => other

/-! ### The duties of the source -/

/-- R150 item 3, R104, R126: an end of the stream that the source shows in a run and keeps as it owes is not missed.
Without a reset, behind any number of cycles with an emission pending, it is seen in the first cycle with none, and
ends the run there; no bit is consumed from when it was shown; and where an emission was pending, the run is DONE,
strict or not. -/
def Obligations.HeldEndEndsTheRun : Prop :=
  ∀ (k : Nat) (s : State), s.phase = .run → s.inputs.bitEos = true → s.inputs.bitValid = false →
    (∀ j, j < k → emit (runCycles j s) = true ∧ (runCycles j s).inputs.rst = false ∧
      endHolds (runCycles j s) (runCycles (j + 1) s) = true) →
    emit (runCycles k s) = false → (runCycles k s).inputs.rst = false →
    seesEos (runCycles k s) = true ∧ runEnded (runCycles (k + 1) s) = true ∧
      (runCycles (k + 1) s).consumed = s.consumed ∧ (0 < k → (runCycles (k + 1) s).phase = .done)

/-- R12, R88, R150, R153: the outcome of a run stated through the duties themselves. In the START cycle and the `k`
cycles after it the source keeps R150 items 1 to 3 for the stream `bits`, which it may present before, at or after
START, until its run ends (log 16); in the `k` cycles the host keeps off; source and sink stall as they like. Then the run ends exactly when its
cycles that are no stall are as many as `decode` needs, and when it has ended the symbols taken, the bits consumed and
the registers are those of `decode`, the memory unchanged. -/
def Obligations.RunUnderItsDutiesAgreesWithDecode : Prop :=
  ∀ (s t : State) (bits : List Bool) (k : Nat), s.phase ≠ .run → s.inputs.rst = false → s.inputs.start = true →
    step s = .next t → sourceOwes (k + 1) bits s = true → (∀ j, j < k → hostKeepsOff (runCycles j t) = true) →
    let r := decodeStream t.mem.read bits s.inputs.strictI
    let u := runCycles k t
    activeCycles k t ≤ runLength r ∧ (runEnded u = true ↔ activeCycles k t = runLength r) ∧
    (runEnded u = true →
      u.taken = s.taken ++ r.1 ∧ u.consumed = s.consumed ++ bits.take r.2.consumed ∧
      u.strict = s.inputs.strictI ∧ u.mem = t.mem ∧
      (u.phase, u.cursor, u.err, u.errBit) =
        match r.2 with
        | .done _ => (.done, 0, .none, false)
        | .brokenTree node b _ => (.error, node, .brokenTree, b)
        | .truncatedStream node _ => (.error, node, .truncatedStream, false))
end

