-- ==== Sys2Proof/Laws/Memory.lean ====
section
/-!
SUPPORT. What the operations on the node memory do: a read after a write, and the canonical form.
-/

namespace Sys2Proof.Machine

theorem Memory.lookup_insert_same (m : Memory) (a : Nat) (v : NodeWord) :
    (m.insert a v).lookup a = some v := by
  induction m with
  | nil => simp [Memory.insert, Memory.lookup]
  | cons c m ih =>
    obtain ⟨b, w⟩ := c
    by_cases h1 : a < b
    · simp [Memory.insert, Memory.lookup, h1]
    · by_cases h2 : a = b
      · simp [Memory.insert, Memory.lookup, h2]
      · simp [Memory.insert, Memory.lookup, h1, h2, ih]

theorem Memory.lookup_insert_ne (m : Memory) {a x : Nat} (v : NodeWord) (h : x ≠ a) :
    (m.insert a v).lookup x = m.lookup x := by
  induction m with
  | nil => simp [Memory.insert, Memory.lookup, h]
  | cons c m ih =>
    obtain ⟨b, w⟩ := c
    by_cases h1 : a < b
    · simp [Memory.insert, Memory.lookup, h1, h]
    · by_cases h2 : a = b
      · subst h2; simp [Memory.insert, Memory.lookup, h]
      · simp [Memory.insert, Memory.lookup, h1, h2, ih]

theorem toNat_ne_of_ne {i j : NodeIndex} (h : j ≠ i) : j.toNat ≠ i.toNat :=
  fun e => h (BitVec.eq_of_toNat_eq e)

/-- A read after a write to the same index gives the word written. -/
@[simp] theorem Memory.read_write_same (m : Memory) (i : NodeIndex) (v : NodeWord) :
    (m.write i v).read i = v := by
  simp [Memory.read, Memory.write, Memory.lookup_insert_same]

/-- A write leaves every other index alone. -/
theorem Memory.read_write_ne (m : Memory) {i j : NodeIndex} (v : NodeWord) (h : j ≠ i) :
    (m.write i v).read j = m.read j := by
  simp [Memory.read, Memory.write, Memory.lookup_insert_ne m v (toNat_ne_of_ne h)]

@[simp] theorem Memory.written_write_same (m : Memory) (i : NodeIndex) (v : NodeWord) :
    (m.write i v).written i = true := by
  simp [Memory.written, Memory.write, Memory.lookup_insert_same]

theorem Memory.written_write_ne (m : Memory) {i j : NodeIndex} (v : NodeWord) (h : j ≠ i) :
    (m.write i v).written j = m.written j := by
  simp [Memory.written, Memory.write, Memory.lookup_insert_ne m v (toNat_ne_of_ne h)]

/-- An index that no write has touched reads its power-up word. -/
theorem Memory.read_of_not_written (m : Memory) (i : NodeIndex) (h : m.written i = false) :
    m.read i = Config.powerUpWord i := by
  cases hl : m.lookup i.toNat <;> simp_all [Memory.written, Memory.read, Memory.unlisted]

theorem Memory.mem_insert (m : Memory) (a : Nat) (v : NodeWord) (c : Nat × NodeWord) :
    c ∈ m.insert a v → c = (a, v) ∨ c ∈ m := by
  induction m with
  | nil => simp [Memory.insert]
  | cons d m ih =>
    obtain ⟨b, w⟩ := d
    by_cases h1 : a < b
    · simp [Memory.insert, h1]
    · by_cases h2 : a = b
      · simp only [Memory.insert, h2, lt_irrefl, if_false, if_true, List.mem_cons]; tauto
      · simp only [Memory.insert, h1, h2, if_false, List.mem_cons]
        rintro (h | h)
        · exact .inr (.inl h)
        · exact (ih h).imp_right .inr

theorem Memory.insert_sorted (m : Memory) (a : Nat) (v : NodeWord)
    (h : (m.map Prod.fst).Pairwise (· < ·)) : ((m.insert a v).map Prod.fst).Pairwise (· < ·) := by
  induction m with
  | nil => simp [Memory.insert]
  | cons d m ih =>
    obtain ⟨b, w⟩ := d
    simp only [List.map_cons, List.pairwise_cons] at h
    obtain ⟨hb, hm⟩ := h
    by_cases h1 : a < b
    · simp only [Memory.insert, h1, if_true, List.map_cons, List.pairwise_cons, List.mem_cons]
      exact ⟨fun x hx => hx.elim (fun e => e ▸ h1) fun hx => h1.trans (hb x hx), hb, hm⟩
    · by_cases h2 : a = b
      · subst h2; simpa [Memory.insert] using ⟨by simpa using hb, hm⟩
      · simp only [Memory.insert, h1, h2, if_false, List.map_cons, List.pairwise_cons]
        refine ⟨fun x hx => ?_, ih hm⟩
        obtain ⟨c, hc, rfl⟩ := List.mem_map.1 hx
        rcases Memory.mem_insert m a v c hc with rfl | hc
        · simp only; omega
        · exact hb _ (List.mem_map_of_mem hc)

/-- A write keeps the canonical form. -/
theorem Memory.wf_write (m : Memory) (i : NodeIndex) (v : NodeWord) (h : m.wf) : (m.write i v).wf := by
  refine ⟨Memory.insert_sorted m _ v h.1, fun c hc => ?_⟩
  rcases Memory.mem_insert m _ v c hc with rfl | hc
  · exact i.isLt
  · exact h.2 c hc

/-- The memory after reset is canonical. -/
theorem Memory.wf_reset : State.reset.mem.wf := by simp [State.reset, Memory.wf]

end Sys2Proof.Machine
end

