-- ==== Sys2Proof/Laws/State.lean ====
section
/-!
SUPPORT. One lemma for each field of State under each named update, so that no proof unfolds a record update.
-/

namespace Sys2Proof.Machine.State

@[simp] theorem endCycle_phase (s : State) : (s.endCycle).phase = s.phase := rfl
@[simp] theorem endCycle_cursor (s : State) : (s.endCycle).cursor = s.cursor := rfl
@[simp] theorem endCycle_strict (s : State) : (s.endCycle).strict = s.strict := rfl
@[simp] theorem endCycle_err (s : State) : (s.endCycle).err = s.err := rfl
@[simp] theorem endCycle_errBit (s : State) : (s.endCycle).errBit = s.errBit := rfl
@[simp] theorem endCycle_mem (s : State) : (s.endCycle).mem = s.mem := rfl
@[simp] theorem endCycle_pins (s : State) : (s.endCycle).pins = s.pins.tail := rfl
@[simp] theorem endCycle_cycle (s : State) : (s.endCycle).cycle = s.cycle + 1 := rfl
@[simp] theorem endCycle_taken (s : State) : (s.endCycle).taken = s.taken := rfl
@[simp] theorem endCycle_consumed (s : State) : (s.endCycle).consumed = s.consumed := rfl

@[simp] theorem setCursor_phase (s : State) (t : NodeIndex) : (s.setCursor t).phase = s.phase := rfl
@[simp] theorem setCursor_cursor (s : State) (t : NodeIndex) : (s.setCursor t).cursor = t := rfl
@[simp] theorem setCursor_strict (s : State) (t : NodeIndex) : (s.setCursor t).strict = s.strict := rfl
@[simp] theorem setCursor_err (s : State) (t : NodeIndex) : (s.setCursor t).err = s.err := rfl
@[simp] theorem setCursor_errBit (s : State) (t : NodeIndex) : (s.setCursor t).errBit = s.errBit := rfl
@[simp] theorem setCursor_mem (s : State) (t : NodeIndex) : (s.setCursor t).mem = s.mem := rfl
@[simp] theorem setCursor_pins (s : State) (t : NodeIndex) : (s.setCursor t).pins = s.pins := rfl
@[simp] theorem setCursor_cycle (s : State) (t : NodeIndex) : (s.setCursor t).cycle = s.cycle := rfl
@[simp] theorem setCursor_taken (s : State) (t : NodeIndex) : (s.setCursor t).taken = s.taken := rfl
@[simp] theorem setCursor_consumed (s : State) (t : NodeIndex) : (s.setCursor t).consumed = s.consumed := rfl

@[simp] theorem setPhase_phase (s : State) (p : Phase) : (s.setPhase p).phase = p := rfl
@[simp] theorem setPhase_cursor (s : State) (p : Phase) : (s.setPhase p).cursor = s.cursor := rfl
@[simp] theorem setPhase_strict (s : State) (p : Phase) : (s.setPhase p).strict = s.strict := rfl
@[simp] theorem setPhase_err (s : State) (p : Phase) : (s.setPhase p).err = s.err := rfl
@[simp] theorem setPhase_errBit (s : State) (p : Phase) : (s.setPhase p).errBit = s.errBit := rfl
@[simp] theorem setPhase_mem (s : State) (p : Phase) : (s.setPhase p).mem = s.mem := rfl
@[simp] theorem setPhase_pins (s : State) (p : Phase) : (s.setPhase p).pins = s.pins := rfl
@[simp] theorem setPhase_cycle (s : State) (p : Phase) : (s.setPhase p).cycle = s.cycle := rfl
@[simp] theorem setPhase_taken (s : State) (p : Phase) : (s.setPhase p).taken = s.taken := rfl
@[simp] theorem setPhase_consumed (s : State) (p : Phase) : (s.setPhase p).consumed = s.consumed := rfl

@[simp] theorem storeNode_phase (s : State) (i : NodeIndex) (v : NodeWord) : (s.storeNode i v).phase = s.phase := rfl
@[simp] theorem storeNode_cursor (s : State) (i : NodeIndex) (v : NodeWord) : (s.storeNode i v).cursor = s.cursor := rfl
@[simp] theorem storeNode_strict (s : State) (i : NodeIndex) (v : NodeWord) : (s.storeNode i v).strict = s.strict := rfl
@[simp] theorem storeNode_err (s : State) (i : NodeIndex) (v : NodeWord) : (s.storeNode i v).err = s.err := rfl
@[simp] theorem storeNode_errBit (s : State) (i : NodeIndex) (v : NodeWord) : (s.storeNode i v).errBit = s.errBit := rfl
@[simp] theorem storeNode_mem (s : State) (i : NodeIndex) (v : NodeWord) : (s.storeNode i v).mem = s.mem.write i v := rfl
@[simp] theorem storeNode_pins (s : State) (i : NodeIndex) (v : NodeWord) : (s.storeNode i v).pins = s.pins := rfl
@[simp] theorem storeNode_cycle (s : State) (i : NodeIndex) (v : NodeWord) : (s.storeNode i v).cycle = s.cycle := rfl
@[simp] theorem storeNode_taken (s : State) (i : NodeIndex) (v : NodeWord) : (s.storeNode i v).taken = s.taken := rfl
@[simp] theorem storeNode_consumed (s : State) (i : NodeIndex) (v : NodeWord) : (s.storeNode i v).consumed = s.consumed := rfl

@[simp] theorem beginRun_phase (s : State) (b : Bool) : (s.beginRun b).phase = .run := rfl
@[simp] theorem beginRun_cursor (s : State) (b : Bool) : (s.beginRun b).cursor = 0 := rfl
@[simp] theorem beginRun_strict (s : State) (b : Bool) : (s.beginRun b).strict = b := rfl
@[simp] theorem beginRun_err (s : State) (b : Bool) : (s.beginRun b).err = .none := rfl
@[simp] theorem beginRun_errBit (s : State) (b : Bool) : (s.beginRun b).errBit = false := rfl
@[simp] theorem beginRun_mem (s : State) (b : Bool) : (s.beginRun b).mem = s.mem := rfl
@[simp] theorem beginRun_pins (s : State) (b : Bool) : (s.beginRun b).pins = s.pins := rfl
@[simp] theorem beginRun_cycle (s : State) (b : Bool) : (s.beginRun b).cycle = s.cycle := rfl
@[simp] theorem beginRun_taken (s : State) (b : Bool) : (s.beginRun b).taken = s.taken := rfl
@[simp] theorem beginRun_consumed (s : State) (b : Bool) : (s.beginRun b).consumed = s.consumed := rfl

@[simp] theorem resetRegisters_phase (s : State) : (s.resetRegisters).phase = .idle := rfl
@[simp] theorem resetRegisters_cursor (s : State) : (s.resetRegisters).cursor = 0 := rfl
@[simp] theorem resetRegisters_strict (s : State) : (s.resetRegisters).strict = false := rfl
@[simp] theorem resetRegisters_err (s : State) : (s.resetRegisters).err = .none := rfl
@[simp] theorem resetRegisters_errBit (s : State) : (s.resetRegisters).errBit = false := rfl
@[simp] theorem resetRegisters_mem (s : State) : (s.resetRegisters).mem = s.mem := rfl
@[simp] theorem resetRegisters_pins (s : State) : (s.resetRegisters).pins = s.pins := rfl
@[simp] theorem resetRegisters_cycle (s : State) : (s.resetRegisters).cycle = s.cycle := rfl
@[simp] theorem resetRegisters_taken (s : State) : (s.resetRegisters).taken = s.taken := rfl
@[simp] theorem resetRegisters_consumed (s : State) : (s.resetRegisters).consumed = s.consumed := rfl

@[simp] theorem takeFault_phase (s : State) (c : ErrCode) (b : Bool) : (s.takeFault c b).phase = .error := rfl
@[simp] theorem takeFault_cursor (s : State) (c : ErrCode) (b : Bool) : (s.takeFault c b).cursor = s.cursor := rfl
@[simp] theorem takeFault_strict (s : State) (c : ErrCode) (b : Bool) : (s.takeFault c b).strict = s.strict := rfl
@[simp] theorem takeFault_err (s : State) (c : ErrCode) (b : Bool) : (s.takeFault c b).err = c := rfl
@[simp] theorem takeFault_errBit (s : State) (c : ErrCode) (b : Bool) : (s.takeFault c b).errBit = b := rfl
@[simp] theorem takeFault_mem (s : State) (c : ErrCode) (b : Bool) : (s.takeFault c b).mem = s.mem := rfl
@[simp] theorem takeFault_pins (s : State) (c : ErrCode) (b : Bool) : (s.takeFault c b).pins = s.pins := rfl
@[simp] theorem takeFault_cycle (s : State) (c : ErrCode) (b : Bool) : (s.takeFault c b).cycle = s.cycle := rfl
@[simp] theorem takeFault_taken (s : State) (c : ErrCode) (b : Bool) : (s.takeFault c b).taken = s.taken := rfl
@[simp] theorem takeFault_consumed (s : State) (c : ErrCode) (b : Bool) : (s.takeFault c b).consumed = s.consumed := rfl

@[simp] theorem raiseBrokenTree_phase (s : State) (b : Bool) : (s.raiseBrokenTree b).phase = .error := rfl
@[simp] theorem raiseBrokenTree_cursor (s : State) (b : Bool) : (s.raiseBrokenTree b).cursor = s.cursor := rfl
@[simp] theorem raiseBrokenTree_strict (s : State) (b : Bool) : (s.raiseBrokenTree b).strict = s.strict := rfl
@[simp] theorem raiseBrokenTree_err (s : State) (b : Bool) : (s.raiseBrokenTree b).err = .brokenTree := rfl
@[simp] theorem raiseBrokenTree_errBit (s : State) (b : Bool) : (s.raiseBrokenTree b).errBit = b := rfl
@[simp] theorem raiseBrokenTree_mem (s : State) (b : Bool) : (s.raiseBrokenTree b).mem = s.mem := rfl
@[simp] theorem raiseBrokenTree_pins (s : State) (b : Bool) : (s.raiseBrokenTree b).pins = s.pins := rfl
@[simp] theorem raiseBrokenTree_cycle (s : State) (b : Bool) : (s.raiseBrokenTree b).cycle = s.cycle := rfl
@[simp] theorem raiseBrokenTree_taken (s : State) (b : Bool) : (s.raiseBrokenTree b).taken = s.taken := rfl
@[simp] theorem raiseBrokenTree_consumed (s : State) (b : Bool) : (s.raiseBrokenTree b).consumed = s.consumed := rfl

@[simp] theorem raiseTruncatedStream_phase (s : State) : (s.raiseTruncatedStream).phase = .error := rfl
@[simp] theorem raiseTruncatedStream_cursor (s : State) : (s.raiseTruncatedStream).cursor = s.cursor := rfl
@[simp] theorem raiseTruncatedStream_strict (s : State) : (s.raiseTruncatedStream).strict = s.strict := rfl
@[simp] theorem raiseTruncatedStream_err (s : State) : (s.raiseTruncatedStream).err = .truncatedStream := rfl
@[simp] theorem raiseTruncatedStream_errBit (s : State) : (s.raiseTruncatedStream).errBit = false := rfl
@[simp] theorem raiseTruncatedStream_mem (s : State) : (s.raiseTruncatedStream).mem = s.mem := rfl
@[simp] theorem raiseTruncatedStream_pins (s : State) : (s.raiseTruncatedStream).pins = s.pins := rfl
@[simp] theorem raiseTruncatedStream_cycle (s : State) : (s.raiseTruncatedStream).cycle = s.cycle := rfl
@[simp] theorem raiseTruncatedStream_taken (s : State) : (s.raiseTruncatedStream).taken = s.taken := rfl
@[simp] theorem raiseTruncatedStream_consumed (s : State) : (s.raiseTruncatedStream).consumed = s.consumed := rfl

@[simp] theorem sinkTakes_phase (s : State) (c : SymbolByte) : (s.sinkTakes c).phase = s.phase := rfl
@[simp] theorem sinkTakes_cursor (s : State) (c : SymbolByte) : (s.sinkTakes c).cursor = s.cursor := rfl
@[simp] theorem sinkTakes_strict (s : State) (c : SymbolByte) : (s.sinkTakes c).strict = s.strict := rfl
@[simp] theorem sinkTakes_err (s : State) (c : SymbolByte) : (s.sinkTakes c).err = s.err := rfl
@[simp] theorem sinkTakes_errBit (s : State) (c : SymbolByte) : (s.sinkTakes c).errBit = s.errBit := rfl
@[simp] theorem sinkTakes_mem (s : State) (c : SymbolByte) : (s.sinkTakes c).mem = s.mem := rfl
@[simp] theorem sinkTakes_pins (s : State) (c : SymbolByte) : (s.sinkTakes c).pins = s.pins := rfl
@[simp] theorem sinkTakes_cycle (s : State) (c : SymbolByte) : (s.sinkTakes c).cycle = s.cycle := rfl
@[simp] theorem sinkTakes_taken (s : State) (c : SymbolByte) : (s.sinkTakes c).taken = s.taken ++ [c] := rfl
@[simp] theorem sinkTakes_consumed (s : State) (c : SymbolByte) : (s.sinkTakes c).consumed = s.consumed := rfl

@[simp] theorem bitConsumed_phase (s : State) (b : Bool) : (s.bitConsumed b).phase = s.phase := rfl
@[simp] theorem bitConsumed_cursor (s : State) (b : Bool) : (s.bitConsumed b).cursor = s.cursor := rfl
@[simp] theorem bitConsumed_strict (s : State) (b : Bool) : (s.bitConsumed b).strict = s.strict := rfl
@[simp] theorem bitConsumed_err (s : State) (b : Bool) : (s.bitConsumed b).err = s.err := rfl
@[simp] theorem bitConsumed_errBit (s : State) (b : Bool) : (s.bitConsumed b).errBit = s.errBit := rfl
@[simp] theorem bitConsumed_mem (s : State) (b : Bool) : (s.bitConsumed b).mem = s.mem := rfl
@[simp] theorem bitConsumed_pins (s : State) (b : Bool) : (s.bitConsumed b).pins = s.pins := rfl
@[simp] theorem bitConsumed_cycle (s : State) (b : Bool) : (s.bitConsumed b).cycle = s.cycle := rfl
@[simp] theorem bitConsumed_taken (s : State) (b : Bool) : (s.bitConsumed b).taken = s.taken := rfl
@[simp] theorem bitConsumed_consumed (s : State) (b : Bool) : (s.bitConsumed b).consumed = s.consumed ++ [b] := rfl

@[simp] theorem placeNode_phase (s : State) (w : NodeWord) : (s.placeNode w).phase = .run := rfl
@[simp] theorem placeNode_cursor (s : State) (w : NodeWord) : (s.placeNode w).cursor = s.cursor := rfl
@[simp] theorem placeNode_strict (s : State) (w : NodeWord) : (s.placeNode w).strict = s.strict := rfl
@[simp] theorem placeNode_err (s : State) (w : NodeWord) : (s.placeNode w).err = s.err := rfl
@[simp] theorem placeNode_errBit (s : State) (w : NodeWord) : (s.placeNode w).errBit = s.errBit := rfl
@[simp] theorem placeNode_mem (s : State) (w : NodeWord) : (s.placeNode w).mem = s.mem.write s.cursor w := rfl
@[simp] theorem placeNode_pins (s : State) (w : NodeWord) : (s.placeNode w).pins = fetchInputs :: s.pins.tail := rfl
@[simp] theorem placeNode_cycle (s : State) (w : NodeWord) : (s.placeNode w).cycle = s.cycle := rfl
@[simp] theorem placeNode_taken (s : State) (w : NodeWord) : (s.placeNode w).taken = s.taken := rfl
@[simp] theorem placeNode_consumed (s : State) (w : NodeWord) : (s.placeNode w).consumed = s.consumed := rfl

@[simp] theorem inputs_cons (s : State) (p : Inputs) (ps : List Inputs) (h : s.pins = p :: ps) :
    s.inputs = p := by simp [State.inputs, h]

end Sys2Proof.Machine.State
end

