-- ==== Sys2Proof/Laws/Ops.lean ====
section
/-!
SUPPORT. What the shared operations answer: decoding, operand forms, derived conditions, the handshakes of a cycle.
-/

namespace Sys2Proof

theorem decode_eq_node_iff (w : NodeWord) (l r : NodeIndex) :
    decode w = .node l r ↔ tagBit w = false ∧ leftField w = l ∧ rightField w = r := by
  unfold decode; cases tagBit w <;> simp

theorem decode_eq_leaf_iff (w : NodeWord) (v : Reserved) (c : SymbolByte) :
    decode w = .leaf v c ↔ tagBit w = true ∧ rsvField w = v ∧ symField w = c := by
  unfold decode; cases tagBit w <;> simp

namespace Machine

@[simp] theorem root_eq : Config.root = 0#9 := rfl

@[simp] theorem isNull_iff (link : NodeIndex) : isNull link = true ↔ link = 0#9 := by simp [isNull, Config.null]

@[simp] theorem isNull_false_iff (link : NodeIndex) : isNull link = false ↔ link ≠ 0#9 := by simp [isNull, Config.null]

/-- The link a bit selects in a word that decodes to a NODE. -/
theorem wordLink_of_decode {w : NodeWord} {l r : NodeIndex} (h : decode w = .node l r) (b : Bool) :
    wordLink w b = selectedLink l r b := by
  obtain ⟨-, rfl, rfl⟩ := (decode_eq_node_iff w l r).1 h; rfl

theorem emit_iff (s : State) : emit s = true ↔ s.phase = .run ∧ s.cursor ≠ 0#9 ∧ tagBit s.node = true := by
  simp [emit, isLeaf, and_assoc]

theorem emit_false_of_phase {s : State} (h : s.phase ≠ .run) : emit s = false := by simp [emit, h]

theorem emit_false_of_root {s : State} (h : s.cursor = 0#9) : emit s = false := by simp [emit, h]

theorem bitReady_iff (s : State) : bitReady s = true ↔ s.phase = .run ∧ emit s = false := by simp [bitReady]

/-- The handshakes write the environment's records and nothing else. -/
theorem handshakes_eq (s : State) : s.handshakes =
    { s with
      taken := s.taken ++ (if symValid s && s.inputs.symReady then [symData s] else [])
      consumed := s.consumed ++ (if bitReady s && s.inputs.bitValid then [s.inputs.bitData] else []) } := by
  unfold State.handshakes
  cases symValid s && s.inputs.symReady <;> cases bitReady s && s.inputs.bitValid <;>
    simp [State.sinkTakes, State.bitConsumed]

end Machine

end Sys2Proof
end

