-- ==== Sys2Proof/Laws/PerInstr.lean ====
section
/-!
SUPPORT. Statements made for every instruction, one lemma for each constructor.
-/

namespace Sys2Proof.Laws.Encoding

/-- An instruction has a word exactly if it is well-formed, and exactly then its table row has a bit pattern
(spec/30_encoding.md R65); a canonical instruction is well-formed (R64). -/
def Statement (i : Instr) : Prop :=
  (encode i).isSome = i.wellFormed ∧ (opcodeMatch i).isSome = i.wellFormed ∧
    (i.canonical = true → i.wellFormed = true)

theorem node (l r : NodeIndex) : Statement (.node l r) := ⟨rfl, rfl, fun _ => rfl⟩
theorem leaf (v : Reserved) (c : SymbolByte) : Statement (.leaf v c) := ⟨rfl, rfl, fun _ => rfl⟩
theorem reset : Statement .reset := ⟨rfl, rfl, id⟩
theorem wrnode (i : NodeIndex) (v : NodeWord) : Statement (.wrnode i v) := ⟨rfl, rfl, id⟩
theorem start (b : Bool) : Statement (.start b) := ⟨rfl, rfl, id⟩
theorem eos : Statement .eos := ⟨rfl, rfl, id⟩
theorem stall : Statement .stall := ⟨rfl, rfl, id⟩

end Sys2Proof.Laws.Encoding
end

