-- ==== Sys2Proof/Laws/Step.lean ====
section
/-!
SUPPORT. What an instruction and a step can do, said once: each meaning as one conditional, and the next state of a
step as one function of the state. Proofs cite these and unfold no meaning.
-/

namespace Sys2Proof.Machine

/-! ### The meanings -/

theorem execNode_off (l r : NodeIndex) {s : State} (h : s.phase ≠ .run ∨ s.inputs.bitValid = false) :
    execNode l r s = .next s := by
  unfold execNode; rcases h with h | h <;> simp [h]

theorem execNode_on (l r : NodeIndex) {s : State} (hp : s.phase = .run) (hv : s.inputs.bitValid = true) :
    execNode l r s = .next (if selectedLink l r s.inputs.bitData = 0#9
      then (s.bitConsumed s.inputs.bitData).raiseBrokenTree s.inputs.bitData
      else (s.bitConsumed s.inputs.bitData).setCursor (selectedLink l r s.inputs.bitData)) := by
  by_cases h : selectedLink l r s.inputs.bitData = 0#9 <;> simp [execNode, hp, hv, isNull, Config.null, h]

theorem execLeaf_off (c : SymbolByte) {s : State} (h : s.phase ≠ .run) : execLeaf c s = .next s := by
  simp [execLeaf, h]

theorem execLeaf_emit (c : SymbolByte) {s : State} (hp : s.phase = .run) (hc : s.cursor ≠ 0#9) :
    execLeaf c s = .next (if s.inputs.symReady then (s.sinkTakes c).setCursor 0#9 else s) := by
  cases h : s.inputs.symReady <;> simp [execLeaf, hp, hc, h]

theorem execLeaf_root (c : SymbolByte) {s : State} (hp : s.phase = .run) (hc : s.cursor = 0#9) :
    execLeaf c s = .next (if s.inputs.bitValid
      then (s.bitConsumed s.inputs.bitData).raiseBrokenTree s.inputs.bitData
      else if s.inputs.bitEos then s.setPhase .done else s) := by
  cases h : s.inputs.bitValid <;> cases h' : s.inputs.bitEos <;> simp [execLeaf, hp, hc, h, h']

theorem execEos_off {s : State} (h : s.phase ≠ .run ∨ emit s = true) : execEos s = .next s := by
  unfold execEos; rcases h with h | h <;> simp [h]

theorem execEos_on {s : State} (hp : s.phase = .run) (he : emit s = false) :
    execEos s = .next (if s.cursor = 0#9 then s.setPhase .done
      else if s.strict then s.raiseTruncatedStream else (s.setPhase .done).setCursor 0#9) := by
  by_cases h : s.cursor = 0#9 <;> cases h' : s.strict <;> simp [execEos, hp, he, h, h']

theorem execWrnode_eq (i : NodeIndex) (v : NodeWord) (s : State) :
    execWrnode i v s = .next (if s.phase = .run then s else s.storeNode i v) := by
  by_cases h : s.phase = .run <;> simp [execWrnode, h]

theorem execStart_eq (b : Bool) (s : State) :
    execStart b s = .next (if s.phase = .run then s else s.beginRun b) := by
  by_cases h : s.phase = .run <;> simp [execStart, h]

/-! ### The step -/

/-- The state after the instructions of a cycle, before the end of the cycle. -/
def cycleResult (s : State) : State :=
  if s.inputs.rst then s.handshakes.resetRegisters
  else if s.phase = .run then
    if emit s then
      if s.inputs.symReady then (s.sinkTakes (symField s.node)).setCursor 0#9 else s
    else if s.inputs.bitValid then
      if tagBit s.node = true ∨ wordLink s.node s.inputs.bitData = 0#9
      then (s.bitConsumed s.inputs.bitData).raiseBrokenTree s.inputs.bitData
      else (s.bitConsumed s.inputs.bitData).setCursor (wordLink s.node s.inputs.bitData)
    else if s.inputs.bitEos then
      if s.cursor = 0#9 then s.setPhase .done
      else if s.strict then s.raiseTruncatedStream
      else (s.setPhase .done).setCursor 0#9
    else s
  else
    let u := if s.inputs.twEn then s.storeNode s.inputs.twAddr s.inputs.twData else s
    if s.inputs.start then u.beginRun s.inputs.strictI else u

theorem execAll_single (i : Instr) (s : State) : execAll [i] s = exec i s := by
  simp only [execAll]; cases exec i s <;> rfl

theorem exec_fetch {s : State} (hp : s.phase = .run) (h : emit s = true ∨ s.inputs.bitValid = true) :
    exec (fetch s) s = .next (if emit s then
      if s.inputs.symReady then (s.sinkTakes (symField s.node)).setCursor 0#9 else s
    else if tagBit s.node = true ∨ wordLink s.node s.inputs.bitData = 0#9
      then (s.bitConsumed s.inputs.bitData).raiseBrokenTree s.inputs.bitData
      else (s.bitConsumed s.inputs.bitData).setCursor (wordLink s.node s.inputs.bitData)) := by
  unfold fetch decode
  by_cases ht : tagBit s.node = true
  · by_cases hc : s.cursor = 0#9
    · have he := emit_false_of_root hc
      have hv : s.inputs.bitValid = true := by simpa [he] using h
      simp [exec, ht, execLeaf_root _ hp hc, he, hv]
    · have he : emit s = true := (emit_iff s).2 ⟨hp, hc, ht⟩
      simp [exec, ht, execLeaf_emit _ hp hc, he]
  · have he : emit s = false := by simp [emit, isLeaf, ht]
    have hv : s.inputs.bitValid = true := by simpa [he] using h
    simp [exec, ht, execNode_on _ _ hp hv, he, wordLink]

/-- What the instructions of a cycle answer, in every state. -/
theorem execAll_cycleInstrs (s : State) : execAll (cycleInstrs s) s = .next (cycleResult s) := by
  unfold cycleInstrs cycleResult
  cases hr : s.inputs.rst
  · by_cases hp : s.phase = .run
    · by_cases he : emit s = true ∨ s.inputs.bitValid = true
      · have hi : runEvents s s.inputs = [fetch s] := if_pos (by simpa using he)
        simp only [Bool.false_eq_true, if_false, if_true, hp, beq_self_eq_true, hi]
        rw [execAll_single, exec_fetch hp he]
        rcases he with he | he <;> simp [he]
      · simp only [not_or, Bool.not_eq_true] at he
        cases h3 : s.inputs.bitEos <;>
          simp [hp, runEvents, he, h3, execAll_single, exec, execEos_on, execStall]
    · cases h1 : s.inputs.twEn <;> cases h2 : s.inputs.start <;>
        simp [hp, hostEvents, h1, h2, execAll, exec, execWrnode_eq, execStart_eq, execStall]
  · simp [execAll_single, exec, execReset]

/-- A step always answers a next state, this one. -/
theorem step_eq (s : State) : step s = .next (cycleResult s).endCycle := by
  rw [step, cycleStep, execAll_cycleInstrs, closeCycle]

theorem step_next_iff (s t : State) : step s = .next t ↔ t = (cycleResult s).endCycle := by
  rw [step_eq, Host.Outcome.next.injEq, eq_comm]

@[simp] theorem runCycles_zero (s : State) : runCycles 0 s = s := rfl

theorem runCycles_succ (k : Nat) (s : State) : runCycles (k + 1) s = runCycles k (cycleResult s).endCycle := by
  simp [runCycles, step_eq]

theorem runCycles_one (s : State) : runCycles 1 s = (cycleResult s).endCycle := by simp [runCycles_succ]

end Sys2Proof.Machine
end

