-- ==== Sys2Proof/Tests/Slice0.lean ====
section
/-!
SUPPORT. Tests: expected values from the worked vectors of spec/95_test_vectors.md (named in each test), the smoke
tests of the well-formedness checks, and for every statement with hypotheses a concrete state that meets them.
-/

namespace Sys2Proof.Tests

open Sys2Proof Sys2Proof.Machine

/-! ### Images and states of spec/95_test_vectors.md section 2 -/

def imageT6 : Memory :=
  [(0, 0x00202#19), (1, 0x40066#19), (2, 0x00606#19), (3, 0x00805#19), (4, 0x40063#19), (5, 0x40064#19),
   (6, 0x00E0A#19), (7, 0x01009#19), (8, 0x40061#19), (9, 0x40062#19), (10, 0x40065#19)]
def imageT2 : Memory := [(0, 0x00202#19), (1, 0x40061#19), (2, 0x40062#19)]
def imageT1 : Memory := [(0, 0x40061#19)]
def imageTB : Memory := [(0, 0x00202#19), (1, 0x40061#19), (2, 0x00600#19), (3, 0x40062#19)]
def imageTC : Memory := [(0, 0x00202#19), (1, 0x40061#19), (2, 0x00401#19)]
def imageTR : Memory := [(0, 0x00202#19), (1, 0x7FF61#19), (2, 0x400FF#19)]

/-- A state as section 3 writes it, `phase,cursor,strict,err,err_bit`, over an image, with this cycle's inputs. -/
def mk (m : Memory) (ph : Phase) (cur : NodeIndex) (st : Bool) (er : ErrCode) (eb : Bool) (p : Inputs) : State :=
  { phase := ph, cursor := cur, strict := st, err := er, errBit := eb, mem := m, pins := [p], cycle := 0,
    taken := [], consumed := [] }

/-- A state in RUN with these inputs. -/
def running (m : Memory) (cur : NodeIndex) (st : Bool) (p : Inputs) : State := mk m .run cur st .none false p

/-- The state after one step. -/
def after (s : State) : Option State :=
  match step s with
  | .next t => some t
  | .fault _ => none
  | .refused _ => none

/-- The registers as section 3 writes them, then the symbols taken and the bits consumed. -/
structure Row where
  phase : Phase
  cursor : NodeIndex
  strict : Bool
  err : ErrCode
  errBit : Bool
  taken : List SymbolByte
  consumed : List Bool
  deriving DecidableEq, Repr

/-- The registers and the records after one step. -/
def regsAfter (s : State) : Option Row :=
  (after s).map fun t => ⟨t.phase, t.cursor, t.strict, t.err, t.errBit, t.taken, t.consumed⟩

/-- `bit_ready`, `sym_valid`, `sym_data`, as section 3 writes the outputs. -/
def shown (s : State) : Bool × Bool × SymbolByte := ((out s).bitReady, (out s).symValid, (out s).symData)

/-! ### Decoding: words written out bit by bit from spec/30_encoding.md R60 -/

theorem test_decode_node : decode 0b0000000111000001010#19 = .node 7 10 := by decide
theorem test_decode_node_extremes : decode 0b0111111111000000000#19 = .node 511 0 := by decide
theorem test_decode_leaf : decode 0b1000000000001100110#19 = .leaf 0 102 := by decide
theorem test_decode_leaf_reserved : decode 0b1111111111101100001#19 = .leaf 0x3FF 97 := by decide
theorem test_encode_node : encode (.node 7 10) = some 0x00E0A#19 := by decide
theorem test_encode_leaf : encode (.leaf 0 255) = some 0x400FF#19 := by decide
theorem test_tableWord_node : decodeTableWord 24 0x00202 = some (.node 1 2) := by decide
theorem test_tableWord_wide : decodeTableWord 24 0x80000 = none := by decide

/-! ### The well-formedness checks refuse ill-formed terms -/

theorem test_wellFormed_refuses_events :
    [Instr.reset, .wrnode 0 0, .start true, .eos, .stall].all (fun i => !i.wellFormed) = true := by decide
theorem test_canonical_refuses_reserved : (Instr.leaf 1 97).canonical = false := by decide
theorem test_image_refuses_root_leaf : ¬ WellFormedImage imageT1 := fun h => absurd h.root_is_node (by decide)
theorem test_image_refuses_missing_link : ¬ WellFormedImage imageTB := fun h =>
  absurd (h.links_present 2 true (.link 0 true .root (by decide) (by decide)) (by decide)) (by decide)
theorem test_image_refuses_shared_node : ¬ WellFormedImage imageTC := fun h =>
  absurd (h.one_parent 0 false 2 true .root (.link 0 true .root (by decide) (by decide)) (by decide) (by decide)
    (by decide)).1 (by decide)
theorem test_image_refuses_unwritten : ¬ WellFormedImage [(0, 0x00202#19)] := fun h =>
  absurd (h.written 1 (.link 0 false .root (by decide) (by decide))) (by decide)
theorem test_memory_refuses_unsorted : ¬ Memory.wf [(2, 0), (1, 0)] ∧ ¬ Memory.wf [(512, 0)] := by decide

/-! ### One step: the vectors of section 3 -/

theorem test_node_V6 : regsAfter (running imageT6 2 false
    { bitValid := true, start := true, strictI := true, twEn := true, twAddr := 2, twData := 0x00000 }) =
    some ⟨.run, 3, false, .none, false, [], [false]⟩ := by decide
theorem test_node_V7 : regsAfter (running imageTB 2 false { bitValid := true, bitData := true }) =
    some ⟨.error, 2, false, .brokenTree, true, [], [true]⟩ := by decide
theorem test_leaf_V15 :
    shown (running imageTR 2 false { symReady := true, bitValid := true }) = (false, true, 255) ∧
    regsAfter (running imageTR 2 false { symReady := true, bitValid := true }) = some ⟨.run, 0, false, .none, false, [255], []⟩ := by decide
theorem test_leaf_V17 :
    shown (running imageT1 0 true { bitValid := true, bitData := true }) = (true, false, 0) ∧
    regsAfter (running imageT1 0 true { bitValid := true, bitData := true }) = some ⟨.error, 0, true, .brokenTree, true, [], [true]⟩ := by decide
theorem test_reset_V35 : (after (mk imageT6 .error 7 true .truncatedStream false
    { rst := true, start := true, twEn := true })).map (fun t => (t.phase, t.cursor, t.mem)) =
    some (.idle, 0, imageT6) := by decide
theorem test_reset_V36 : regsAfter (running imageT6 8 true { rst := true, symReady := true }) =
    some ⟨.idle, 0, false, .none, false, [97], []⟩ := by decide
theorem test_wrnode_V30 : (after (mk imageTB .error 2 false .brokenTree true
    { twEn := true, twAddr := 2, twData := 0x00601 })).map (fun t => (t.phase, t.cursor, t.err, t.mem.read 2)) =
    some (.error, 2, .brokenTree, 0x00601#19) := by decide
theorem test_wrnode_start_V31 : (after (mk imageTB .error 2 false .brokenTree true
    { twEn := true, twAddr := 2, twData := 0x00601, start := true, strictI := true })).map
      (fun t => (t.phase, t.cursor, t.strict, t.err, t.errBit, t.mem.read 2)) =
    some (.run, 0, true, .none, false, 0x00601#19) := by decide
theorem test_start_V29 : regsAfter (mk imageTB .error 2 false .brokenTree true { start := true }) =
    some ⟨.run, 0, false, .none, false, [], []⟩ := by decide
theorem test_start_V33 : regsAfter (running imageT6 2 false { twEn := true, twAddr := 2, start := true }) =
    some ⟨.run, 2, false, .none, false, [], []⟩ := by decide
theorem test_eos_V22 : regsAfter (running imageT6 7 false { bitEos := true }) =
    some ⟨.done, 0, false, .none, false, [], []⟩ := by decide
theorem test_eos_V23 : regsAfter (running imageT6 7 true { bitEos := true }) =
    some ⟨.error, 7, true, .truncatedStream, false, [], []⟩ := by decide
theorem test_stall_V26 : regsAfter (running imageT6 8 true { bitEos := true }) =
    some ⟨.run, 8, true, .none, false, [], []⟩ := by decide
theorem test_stall_V34 : regsAfter (mk imageT6 .done 0 false .none false
    { bitValid := true, bitData := true, symReady := true, bitEos := true }) =
    some ⟨.done, 0, false, .none, false, [], []⟩ := by decide

/-- The word of an opcode-table row is placed, fetched and run as the first instruction after reset. -/
theorem test_withFetchWord_node : regsAfter (State.reset.withFetchWord 24 0x00202) =
    some ⟨.run, 1, false, .none, false, [], [false]⟩ := by decide
theorem test_withFetchWord_leaf : regsAfter (State.reset.withFetchWord 24 0x40061) =
    some ⟨.error, 0, false, .brokenTree, false, [], [false]⟩ := by decide

/-! ### The event level: the vectors of section 4 -/

theorem test_decode_E6 : decodeStream imageT6.read [false, true, true, false] true =
    ([102], .truncatedStream 7 4) := by decide
theorem test_decode_E11 : decodeStream imageTB.read [false, true, false, true, true, false] false =
    ([97, 98], .brokenTree 2 true 5) := by decide
theorem test_decode_E15 : decodeStream imageTC.read [true, false, false, false, true, false] false =
    ([97, 97], .done 6) := by decide

/-! ### The reference loader: examples X4 and the images of section 2 -/

/-- The image TB from its text: 97, 0, 98, 10. -/
theorem test_load_TB : (match loadImage [⟨97, ['0']⟩, ⟨98, ['1', '0']⟩] with
    | .ok m => some m
    | .error _ => none) = some imageTB := by decide
/-- X4: the corrupt table fails with ConflictingPath. -/
theorem test_load_X4 : (match loadImage [⟨97, ['0', '1']⟩, ⟨98, ['0']⟩] with
    | .ok _ => none
    | .error e => some e) = some .conflictingPath := by decide
/-- T1: "No persisted text exists" for the one-leaf tree. -/
theorem test_save_T1 : saveImage imageT1.read = none := by decide
theorem test_save_T2 : saveFrom imageT2.read 3 0 [] = [⟨97, ['0']⟩, ⟨98, ['1']⟩] := by decide

/-! ### Witnesses: for each statement with hypotheses, states and operands that meet them, clause by clause -/

/-- In RUN with a bit on offer at T6's root. -/
def sBit (b : Bool) : State := running imageT6 0 false { bitValid := true, bitData := b }
/-- In RUN with an emission pending at T6's node 8. -/
def sLeaf (ready : Bool) : State := running imageT6 8 false { symReady := ready }
/-- In RUN at T6's node 7 (or another) at the end of the stream. -/
def sEos (cur : NodeIndex) (st : Bool) : State := running imageT6 cur st { bitEos := true }
/-- Outside RUN with these inputs. -/
def sRest (p : Inputs) : State := mk imageT6 .idle 0 false .none false p
/-- A whole run of the stream `0` on T2 with no stalls: START, the bit, the hand-over, the EOS. -/
def sRun : State :=
  { mk imageT2 .idle 0 false .none false {} with
    pins := [{ start := true }, { bitValid := true }, { symReady := true }, { bitEos := true }] }
/-- The same run after its START. -/
def sRun1 : State := { sRun with phase := .run, pins := sRun.pins.tail, cycle := 1 }

theorem witness_DecodeInvertsEncode :
    (Instr.node 511 0).wellFormed = true ∧ (Instr.leaf 0x3FF 255).wellFormed = true := by decide
theorem witness_DecodeReadsTheFields : 2 ^ 18 - 1 < 2 ^ 19 ∧ 2 ^ 18 - 1 < 2 ^ 18 ∧ 2 ^ 18 < 2 ^ 19 ∧
    ¬ 2 ^ 18 < 2 ^ 18 ∧ 2 ^ 19 - 1 < 2 ^ 19 := by decide
theorem witness_StepRunsTheFetchedInstruction :
    ((sLeaf false).inputs.rst = false ∧ (sLeaf false).phase = .run ∧ emit (sLeaf false) = true ∧
      (sLeaf false).inputs.bitValid = false ∧ decode (sLeaf false).node = .leaf 0 97) ∧
    ((sBit true).inputs.rst = false ∧ (sBit true).phase = .run ∧ (sBit true).inputs.bitValid = true ∧
      decode (sBit true).node = .node 1 2) := by decide
theorem witness_StepRunsThePortEvent :
    (running imageT6 8 false { rst := true }).inputs.rst = true ∧
    ((sEos 7 true).inputs.rst = false ∧ (sEos 7 true).phase = .run ∧ emit (sEos 7 true) = false ∧
      (sEos 7 true).inputs.bitValid = false) ∧
    ((sRest { twEn := true }).inputs.rst = false ∧ (sRest { twEn := true }).phase ≠ .run ∧
      (sRest { twEn := true }).inputs.twEn = true ∧ (sRest { twEn := true }).inputs.start = false) ∧
    ((sRest { start := true }).inputs.twEn = false ∧ (sRest { start := true }).inputs.start = true) ∧
    ((sRest { start := true, twEn := true }).inputs.twEn = true ∧
      (sRest { start := true, twEn := true }).inputs.start = true) ∧
    ((sRest {}).inputs.twEn = false ∧ (sRest {}).inputs.start = false) := by decide
theorem witness_NodeFollowsTheSelectedLink :
    (sBit false).phase = .run ∧ (sBit false).inputs.bitValid = true ∧
    (if (sBit false).inputs.bitData then 0#9 else 511#9) ≠ 0#9 ∧
    (if (sBit true).inputs.bitData then 1#9 else 0#9) ≠ 0#9 ∧ decode (sBit true).node = .node 1 2 := by decide
theorem witness_NodeWithMissingLinkRaisesBrokenTree :
    let s := running imageTB 2 false { bitValid := true, bitData := true }
    s.phase = .run ∧ s.inputs.bitValid = true ∧ (if s.inputs.bitData then 0#9 else 3#9) = 0#9 ∧
      decode s.node = .node 3 0 := by decide
theorem witness_LeafHandsOverItsSymbol :
    (sLeaf true).phase = .run ∧ (sLeaf true).cursor ≠ 0#9 ∧ (sLeaf true).inputs.symReady = true ∧
    (sLeaf false).inputs.symReady = false ∧ decode (sLeaf true).node = .leaf 0 97 := by decide
theorem witness_RootLeafIsNeverEmitted :
    let s := fun p => running imageT1 0 false p
    (s {}).phase = .run ∧ (s {}).cursor = 0#9 ∧ decode (s {}).node = .leaf 0 97 ∧
      (s { bitValid := true }).inputs.bitValid = true ∧
      ((s { bitEos := true }).inputs.bitValid = false ∧ (s { bitEos := true }).inputs.bitEos = true) ∧
      ((s {}).inputs.bitValid = false ∧ (s {}).inputs.bitEos = false) := by decide
theorem witness_NothingActsOutOfPlace :
    (sRest {}).phase ≠ .run ∧ (sEos 7 true).inputs.bitValid = false ∧ emit (sLeaf false) = true := by decide
theorem witness_WrnodeStoresOneWord : (sRest {}).phase ≠ .run ∧ (sBit true).phase = .run ∧ (0 : NodeIndex) ≠ 511 := by decide
theorem witness_StartBeginsARun : (sRest {}).phase ≠ .run ∧ (sBit true).phase = .run ∧
    (mk imageTB .error 2 false .brokenTree true {}).phase ≠ .run := by decide
theorem witness_EosEndsTheRun :
    ((sEos 0 true).phase = .run ∧ emit (sEos 0 true) = false ∧ (sEos 0 true).cursor = 0#9) ∧
    ((sEos 7 false).phase = .run ∧ emit (sEos 7 false) = false ∧ (sEos 7 false).cursor ≠ 0#9 ∧
      (sEos 7 false).strict = false) ∧
    ((sEos 7 true).phase = .run ∧ emit (sEos 7 true) = false ∧ (sEos 7 true).cursor ≠ 0#9 ∧
      (sEos 7 true).strict = true) ∧
    ((sEos 7 true).inputs.rst = false ∧ (sEos 7 true).inputs.bitValid = false ∧ (sEos 7 true).inputs.bitEos = true) ∧
    emit (sLeaf false) = true := by decide
theorem witness_StallChangesNothing :
    ((running imageT6 7 true {}).inputs.rst = false ∧ (running imageT6 7 true {}).phase = .run ∧
      emit (running imageT6 7 true {}) = false ∧ (running imageT6 7 true {}).inputs.bitValid = false ∧
      (running imageT6 7 true {}).inputs.bitEos = false) ∧
    ((sLeaf false).inputs.rst = false ∧ emit (sLeaf false) = true ∧ (sLeaf false).inputs.symReady = false) := by decide
theorem witness_ResetClearsTheRegisters : (sRest { rst := true }).inputs.rst = true := by decide
theorem witness_ResetKeepsTheHandover : ∀ ready : Bool,
    let s := running imageT6 8 true { rst := true, symReady := ready }
    s.inputs.rst = true ∧ emit s = true := by decide
theorem witness_WrnodeWithStartBothAct :
    let s := sRest { start := true, twEn := true, twAddr := 0 }
    s.inputs.rst = false ∧ s.phase ≠ .run ∧ s.inputs.twEn = true ∧ s.inputs.start = true ∧ s.inputs.twAddr = 0#9 := by
  decide
theorem witness_FrameOfEveryInstruction :
    (∃ t, exec (.node 1 2) (sBit true) = .next t ∧ t.phase ≠ .error) ∧
    (∃ t, exec (.leaf 0 97) (sLeaf true) = .next t) ∧ (∃ t, exec .reset (sLeaf true) = .next t) ∧
    (∃ t, exec (.wrnode 511 0) (sRest {}) = .next t) ∧ (∃ t, exec (.start true) (sRest {}) = .next t) ∧
    (∃ t, exec .eos (sEos 7 true) = .next t) ∧ (∃ t, exec .stall (sRest {}) = .next t) :=
  ⟨⟨_, rfl, by decide⟩, ⟨_, rfl⟩, ⟨_, rfl⟩, ⟨_, rfl⟩, ⟨_, rfl⟩, ⟨_, rfl⟩, ⟨_, rfl⟩⟩
theorem witness_CursorWritesAreTheListed :
    (∃ t, step (running imageT6 7 false { rst := true }) = .next t ∧ t.cursor ≠ 7#9) ∧
    (∃ t, step (mk imageTB .error 2 false .brokenTree true { start := true }) = .next t ∧ t.cursor ≠ 2#9) ∧
    (∃ t, step (sBit true) = .next t ∧ t.cursor ≠ (sBit true).cursor) ∧
    (∃ t, step (sLeaf true) = .next t ∧ t.cursor ≠ (sLeaf true).cursor) ∧
    (∃ t, step (sEos 7 false) = .next t ∧ t.cursor ≠ (sEos 7 false).cursor) :=
  ⟨⟨_, rfl, by decide⟩, ⟨_, rfl, by decide⟩, ⟨_, rfl, by decide⟩, ⟨_, rfl, by decide⟩, ⟨_, rfl, by decide⟩⟩
theorem witness_PhaseTransitionsAreTheListed :
    (∃ t, step (running imageT6 7 false { rst := true }) = .next t ∧ t.phase = .idle) ∧
    (∃ t, step (sRest { start := true }) = .next t ∧ t.phase = .run) ∧
    (∃ t, step (sEos 7 false) = .next t ∧ t.phase = .done) ∧
    (∃ t, step (sEos 7 true) = .next t ∧ t.phase = .error) ∧
    (∃ t, step (running imageTB 2 false { bitValid := true, bitData := true }) = .next t ∧ t.phase = .error) :=
  ⟨⟨_, rfl, by decide⟩, ⟨_, rfl, by decide⟩, ⟨_, rfl, by decide⟩, ⟨_, rfl, by decide⟩, ⟨_, rfl, by decide⟩⟩
theorem witness_FaultEntryIsPrecise :
    (∃ t, step (running imageT1 0 false { bitValid := true }) = .next t ∧ t.phase = .error) ∧
    (∃ t, step (running imageTB 2 false { bitValid := true, bitData := true }) = .next t ∧ t.phase = .error) ∧
    (∃ t, step (sEos 7 true) = .next t ∧ t.phase = .error) ∧ (sEos 7 true).phase ≠ .error :=
  ⟨⟨_, rfl, by decide⟩, ⟨_, rfl, by decide⟩, ⟨_, rfl, by decide⟩, by decide⟩
theorem witness_ErrorIsLeftOnlyByStartOrReset :
    let s := mk imageTB .error 2 false .brokenTree true {}
    (∃ t, step s = .next t) ∧ s.phase = .error ∧ s.inputs.rst = false ∧ s.inputs.start = false ∧
      s.inputs.twEn = false := ⟨⟨_, rfl⟩, by decide⟩
theorem witness_ControlRegistersChangeOnlyAsListed :
    (∃ t, step (sRest { start := true, strictI := true }) = .next t ∧
      t.strict ≠ (sRest { start := true, strictI := true }).strict) ∧
    (∃ t, step (sEos 7 true) = .next t ∧ t.err ≠ (sEos 7 true).err) ∧
    (∃ t, step (running imageTB 2 false { bitValid := true, bitData := true }) = .next t ∧ t.errBit ≠ false) :=
  ⟨⟨_, rfl, by decide⟩, ⟨_, rfl, by decide⟩, ⟨_, rfl, by decide⟩⟩
theorem witness_MemoryChangesOnlyByWrnode :
    (∃ t, step (sRest { twEn := true, twAddr := 0, twData := 0x40000 }) = .next t ∧
      t.mem.read 0 ≠ (sRest {}).mem.read 0) ∧
    (∃ t, step (sRest { twEn := true, twAddr := 511 }) = .next t ∧
      t.mem.written 511 ≠ (sRest {}).mem.written 511) :=
  ⟨⟨_, rfl, by decide⟩, ⟨_, rfl, by decide⟩⟩
theorem witness_MemoryIsConstantDuringARun :
    (runCycles 0 sRun1).phase = .run ∧ (runCycles 1 sRun1).phase = .run := by decide
theorem witness_RunIgnoresTheHostPort :
    let p : Inputs := { bitValid := true }
    let q : Inputs := { bitValid := true, start := true, strictI := true, twEn := true, twAddr := 5, twData := 7 }
    (sBit true).phase = .run ∧ p.rst = q.rst ∧ p.bitValid = q.bitValid ∧ p.bitData = q.bitData ∧
      p.bitEos = q.bitEos ∧ p.symReady = q.symReady ∧ p ≠ q ∧
      (∃ t, step (running imageT6 7 false { rst := true }) = .next t ∧ t.phase = .idle) :=
  ⟨by decide, by decide, by decide, by decide, by decide, by decide, by decide, _, rfl, by decide⟩
theorem witness_RestIgnoresTheStreamPorts :
    let p : Inputs := { start := true }
    let q : Inputs := { start := true, bitValid := true, bitData := true, bitEos := true, symReady := true }
    (sRest {}).phase ≠ .run ∧ p.rst = q.rst ∧ p.start = q.start ∧ p.strictI = q.strictI ∧ p.twEn = q.twEn ∧
      p.twAddr = q.twAddr ∧ p.twData = q.twData ∧ p ≠ q ∧
      (runCycles 0 (sRest {})).inputs.rst = false ∧ (runCycles 0 (sRest {})).inputs.start = false ∧
      (runCycles 0 (sRest {})).inputs.twEn = false := by decide
theorem witness_HardwareHasNoHiddenState :
    let s := sBit true
    let s' : State := { s with cycle := 9, taken := [1], consumed := [true], pins := s.pins ++ [{}] }
    SameHardware s s' ∧ s ≠ s' ∧ s.inputs = s'.inputs ∧ (∃ t, step s = .next t) ∧ ∃ t', step s' = .next t' :=
  ⟨⟨rfl, rfl, rfl, rfl, rfl, rfl⟩, by decide, rfl, ⟨_, rfl⟩, ⟨_, rfl⟩⟩
theorem witness_PriorityWithinACycle :
    ((∃ t, step (sRest { rst := true, start := true }) = .next t) ∧ (sRest { rst := true }).inputs.rst = true) ∧
    (∀ b : Bool, (∃ t, step (sLeaf b) = .next t) ∧ emit (sLeaf b) = true ∧ (sLeaf b).inputs.rst = false ∧
      (sLeaf b).inputs.symReady = b) :=
  ⟨⟨⟨_, rfl⟩, rfl⟩, fun b => by cases b <;> exact ⟨⟨_, rfl⟩, by decide, rfl, rfl⟩⟩
theorem witness_PendingSymbolIsHeld :
    (out (sLeaf false)).symValid = true ∧ (runCycles 0 (sLeaf false)).inputs.rst = false ∧
      (runCycles 0 (sLeaf false)).inputs.symReady = false := by decide
/-- An emission pending on T2's node 1, a bit on offer that the source holds through the hand-over. -/
def sHeld : State :=
  { sRun1 with cursor := 1, pins := [{ bitValid := true, bitData := true, symReady := true },
                                     { bitValid := true, bitData := true }] }
theorem witness_HeldBitIsConsumedOnce :
    sHeld.inputs.bitValid = true ∧
    (∀ j, j < 1 → consumesBit (runCycles j sHeld) = false ∧
      sourceHolds (runCycles j sHeld) (runCycles (j + 1) sHeld).inputs = true) ∧
    consumesBit (runCycles 1 sHeld) = true := by decide
/-- An emission pending on T2's node 1 of a strict run, the end shown while the sink takes the symbol, and kept. -/
def sEnd : State :=
  { sRun1 with cursor := 1, strict := true, pins := [{ bitEos := true }, { bitEos := true, symReady := true },
                                                     { bitEos := true }] }
theorem witness_HeldEndEndsTheRun :
    sEnd.phase = .run ∧ sEnd.inputs.bitEos = true ∧ sEnd.inputs.bitValid = false ∧
    (∀ j, j < 2 → emit (runCycles j sEnd) = true ∧ (runCycles j sEnd).inputs.rst = false ∧
      endHolds (runCycles j sEnd) (runCycles (j + 1) sEnd) = true) ∧
    emit (runCycles 2 sEnd) = false ∧ (runCycles 2 sEnd).inputs.rst = false ∧
    emit (sEos 7 true) = false := by decide
/-- T2's stream `0` with the first bit on offer already in the START cycle, and the end kept until the run has ended. -/
def sOwes : State :=
  { sRun with pins := [{ start := true, bitValid := true }, { bitValid := true }, { bitEos := true, symReady := true },
                       { bitEos := true }, {}] }
/-- The duty holds to the end of the run, also for an end shown before START, and asks nothing of an end left standing
in DONE and then dropped (P2 cycle 11 shows one); an end that is dropped before its run breaks it. -/
theorem witness_RunUnderItsDutiesAgreesWithDecode :
    (sOwes.phase ≠ .run ∧ sOwes.inputs.rst = false ∧ sOwes.inputs.start = true ∧
      step sOwes = .next (runCycles 1 sOwes) ∧ sourceOwes 4 [false] sOwes = true ∧
      (∀ j, j < 3 → hostKeepsOff (runCycles j (runCycles 1 sOwes)) = true) ∧
      runEnded (runCycles 3 (runCycles 1 sOwes)) = true) ∧
    sourceOwes 7 [false] { sOwes with pins := sOwes.pins.dropLast ++ [{ bitEos := true }, {}, { bitValid := true }] } = true ∧
    sourceOwes 2 [] { sRun with pins := [{ bitEos := true }, { start := true, bitEos := true }, { bitEos := true }] } = true ∧
    sourceOwes 1 [] { sRun with pins := [{ bitEos := true }, { start := true }] } = false :=
  ⟨⟨by decide, rfl, rfl, rfl, by decide, by decide, by decide⟩, by decide, by decide, by decide⟩
theorem witness_LoadedImageIsInMemory :
    imageT2.wf ∧ State.reset.phase ≠ .run ∧
      ({ State.reset with pins := loadCycles imageT2 ++ [({} : Inputs)] } : State).pins =
        loadCycles imageT2 ++ [({} : Inputs)] :=
  ⟨by decide, by decide, rfl⟩
theorem witness_EveryStepKeepsTheInvariant : Inv (sEos 2 true) ∧ ∃ t, step (sEos 2 true) = .next t :=
  ⟨⟨by decide, by decide, fun _ _ => ⟨0, true, by decide, by decide⟩, by decide, by decide⟩, ⟨_, rfl⟩⟩
theorem witness_CursorIsTheAppliedPrefix :
    sRun1.phase = .run ∧ sRun1.cursor = 0#9 ∧ delivers 1 [false] sRun1 = true ∧
      (runCycles 1 sRun1).phase = .run ∧ emit (runCycles 1 sRun1) = true := by decide
theorem witness_RunAgreesWithDecode :
    sRun.phase ≠ .run ∧ sRun.inputs.rst = false ∧ sRun.inputs.start = true ∧ step sRun = .next sRun1 ∧
      delivers 3 [false] sRun1 = true ∧ runEnded (runCycles 3 sRun1) = true :=
  ⟨by decide, rfl, rfl, rfl, by decide, by decide⟩
theorem witness_RunLengthWithoutStalls :
    sRun.phase ≠ .run ∧ sRun.inputs.rst = false ∧ sRun.inputs.start = true ∧ step sRun = .next sRun1 ∧
      decodeStream sRun1.mem.read [false] sRun.inputs.strictI = ([97], .done 1) ∧ delivers 3 [false] sRun1 = true ∧
      ∀ j, j < 3 → activeCycle (runCycles j sRun1) = true :=
  ⟨by decide, rfl, rfl, rfl, by decide, by decide, by decide⟩
theorem witness_NothingMovesWithoutTheEnvironment :
    let s := running imageTC 2 false {}
    s.phase = .run ∧ (runCycles 0 s).inputs.rst = false ∧ activeCycle (runCycles 0 s) = false := by decide

/-- The indexes T2's walk reaches. -/
theorem reachable_imageT2 {i : NodeIndex} (h : Reachable imageT2.read i) : i = 0 ∨ i = 1 ∨ i = 2 := by
  induction h with
  | root => exact .inl rfl
  | link j b _ ht _ ih =>
    rcases ih with rfl | rfl | rfl
    · cases b <;> decide
    · exact absurd ht (by decide)
    · exact absurd ht (by decide)
theorem imageT2_wellFormed : WellFormedImage imageT2 where
  root_is_node := by decide
  links_present := fun j b hj ht => by
    rcases reachable_imageT2 hj with rfl | rfl | rfl
    · cases b <;> decide
    · exact absurd ht (by decide)
    · exact absurd ht (by decide)
  one_parent := fun j b j' b' hj hj' ht ht' he => by
    rcases reachable_imageT2 hj with rfl | rfl | rfl
    · rcases reachable_imageT2 hj' with rfl | rfl | rfl
      · cases b <;> cases b' <;> first | exact ⟨rfl, rfl⟩ | exact absurd he (by decide)
      · exact absurd ht' (by decide)
      · exact absurd ht' (by decide)
    · exact absurd ht (by decide)
    · exact absurd ht (by decide)
  written := fun j hj => by rcases reachable_imageT2 hj with rfl | rfl | rfl <;> decide
theorem witness_WellFormedImageSplitsEveryStream : WellFormedImage imageT2 := imageT2_wellFormed
theorem witness_WellFormedImageNeverBreaks :
    let s := running imageT2 1 false { symReady := true, twEn := true }
    OnTree s ∧ (s.phase ≠ .run → s.inputs.twEn = false) ∧ (∃ t, step s = .next t) ∧
      OnTree sRun ∧ (sRun.phase ≠ .run → sRun.inputs.twEn = false) :=
  ⟨⟨imageT2_wellFormed, fun _ => .link 0 false .root (by decide) (by decide), by decide⟩, fun h => absurd rfl h,
    ⟨_, rfl⟩, ⟨imageT2_wellFormed, fun h => absurd h (by decide), by decide⟩, fun _ => rfl⟩
theorem witness_CodePathsDecodeToTheirSymbols :
    ∀ p ∈ [([true], (98 : SymbolByte)), ([false], 97)], isCodePath imageT2.read p.1 p.2 = true := by decide
theorem witness_CodePathsArePrefixFree :
    isCodePath imageT6.read [true, true, false, false] 97 = true ∧
      [true, true, false, false] <+: [true, true, false, false] := by decide

/-- T2 with its two leaves at exchanged indexes, and the renumbering. -/
def imgA : Image := fun i => if i = 0 then 0x00202#19 else if i = 1 then 0x40061#19 else 0x40062#19
def imgB : Image := fun i => if i = 0 then 0x00401#19 else if i = 2 then 0x40061#19 else 0x40062#19
def swap12 : NodeIndex → NodeIndex := fun i => if i = 1 then 2 else if i = 2 then 1 else i
theorem witness_DecodeIgnoresNodeNumbering :
    (∀ i, swap12 i = 0#9 ↔ i = 0#9) ∧
    (∀ i, decode (imgB (swap12 i)) =
      match decode (imgA i) with
      | .node l r => .node (swap12 l) (swap12 r)
      | other => other) ∧ imgA 1 ≠ imgB 1 := by
  refine ⟨fun i => ?_, fun i => ?_, by decide⟩
  · by_cases h1 : i = 1
    · subst h1; decide
    · by_cases h2 : i = 2
      · subst h2; decide
      · simp only [swap12, h1, h2, if_false]
  · by_cases h0 : i = 0
    · subst h0; decide
    · by_cases h1 : i = 1
      · subst h1; decide
      · by_cases h2 : i = 2
        · subst h2; decide
        · simp only [swap12, imgA, imgB, h0, h1, h2, if_false]; decide

end Sys2Proof.Tests
end

/-! ### What one cycle does, case by case -/

namespace Sys2Proof.Machine

/-- The six kinds of cycle, in the order of priority of R80 and R126. -/
theorem cycle_cases (s : State) :
    s.inputs.rst = true ∨
    (s.inputs.rst = false ∧ s.phase ≠ .run) ∨
    (s.inputs.rst = false ∧ emit s = true) ∨
    (s.inputs.rst = false ∧ s.phase = .run ∧ emit s = false ∧ s.inputs.bitValid = true) ∨
    (s.inputs.rst = false ∧ s.phase = .run ∧ emit s = false ∧ s.inputs.bitValid = false ∧ s.inputs.bitEos = true) ∨
    (s.inputs.rst = false ∧ s.phase = .run ∧ emit s = false ∧ s.inputs.bitValid = false ∧ s.inputs.bitEos = false) := by
  cases hr : s.inputs.rst
  · by_cases hp : s.phase = .run
    · cases he : emit s
      · cases hv : s.inputs.bitValid
        · cases hs : s.inputs.bitEos <;> simp [hp]
        · simp [hp]
      · simp
    · simp [hp]
  · simp

variable {s : State}

theorem cycleResult_reset (hr : s.inputs.rst = true) : cycleResult s = s.handshakes.resetRegisters := by
  simp [cycleResult, hr]

theorem cycleResult_host (hr : s.inputs.rst = false) (hp : s.phase ≠ .run) :
    cycleResult s =
      let u := if s.inputs.twEn then s.storeNode s.inputs.twAddr s.inputs.twData else s
      if s.inputs.start then u.beginRun s.inputs.strictI else u := by
  simp [cycleResult, hr, hp]

theorem cycleResult_emit (hr : s.inputs.rst = false) (he : emit s = true) :
    cycleResult s = if s.inputs.symReady then (s.sinkTakes (symField s.node)).setCursor 0#9 else s := by
  simp [cycleResult, hr, he, ((emit_iff s).1 he).1]

theorem cycleResult_bit (hr : s.inputs.rst = false) (hp : s.phase = .run) (he : emit s = false)
    (hv : s.inputs.bitValid = true) :
    cycleResult s = if tagBit s.node = true ∨ wordLink s.node s.inputs.bitData = 0#9
      then (s.bitConsumed s.inputs.bitData).raiseBrokenTree s.inputs.bitData
      else (s.bitConsumed s.inputs.bitData).setCursor (wordLink s.node s.inputs.bitData) := by
  simp [cycleResult, hr, hp, he, hv]

theorem cycleResult_eos (hr : s.inputs.rst = false) (hp : s.phase = .run) (he : emit s = false)
    (hv : s.inputs.bitValid = false) (hs : s.inputs.bitEos = true) :
    cycleResult s = if s.cursor = 0#9 then s.setPhase .done
      else if s.strict then s.raiseTruncatedStream else (s.setPhase .done).setCursor 0#9 := by
  simp [cycleResult, hr, hp, he, hv, hs]

theorem cycleResult_stall (hr : s.inputs.rst = false) (hp : s.phase = .run) (he : emit s = false)
    (hv : s.inputs.bitValid = false) (hs : s.inputs.bitEos = false) : cycleResult s = s := by
  simp [cycleResult, hr, hp, he, hv, hs]

end Sys2Proof.Machine

/-! ### Hardware and environment -/

namespace Sys2Proof

section
open Sys2Proof.Machine

variable {s s' : State}

theorem SameHardware.node_eq (h : SameHardware s s') : s.node = s'.node := by
  obtain ⟨-, hc, -, -, -, hm⟩ := h
  rw [State.node, State.node, hc, hm]

theorem SameHardware.emit_eq (h : SameHardware s s') : emit s = emit s' := by
  have hn := h.node_eq
  obtain ⟨hp, hc, -⟩ := h
  rw [emit, emit, isLeaf, isLeaf, hn, hp, hc]

/-- R29: the outputs are functions of the hardware. -/
theorem SameHardware.out_eq (h : SameHardware s s') : out s = out s' := by
  have hn := h.node_eq
  have he := h.emit_eq
  obtain ⟨hp, hc, -, hr, hb, -⟩ := h
  simp only [out, bitReady, symValid, symData, he, hn, hp, hc, hr, hb]

/-- R32: under the same inputs the same hardware goes on to the same hardware, in each kind of cycle by the same
register writes. -/
theorem SameHardware.cycleResult_of_inputs_eq (h : SameHardware s s') (hi : s.inputs = s'.inputs) :
    SameHardware (cycleResult s) (cycleResult s') := by
  have en := h.node_eq
  have ee := h.emit_eq
  obtain ⟨ep, ec, es, er, eb, em⟩ := h
  rcases cycle_cases s with
    hr | ⟨hr, hp⟩ | ⟨hr, he⟩ | ⟨hr, hp, he, hv⟩ | ⟨hr, hp, he, hv, hs⟩ | ⟨hr, hp, he, hv, hs⟩
  · rw [cycleResult_reset hr, cycleResult_reset (hi ▸ hr)]
    simp [SameHardware, handshakes_eq, em]
  · rw [cycleResult_host hr hp, cycleResult_host (hi ▸ hr) (ep ▸ hp), ← hi]
    cases s.inputs.twEn <;> cases s.inputs.start <;> simp [SameHardware, *]
  · rw [cycleResult_emit hr he, cycleResult_emit (hi ▸ hr) (ee ▸ he), ← hi]
    cases s.inputs.symReady <;> simp [SameHardware, *]
  · rw [cycleResult_bit hr hp he hv, cycleResult_bit (hi ▸ hr) (ep ▸ hp) (ee ▸ he) (hi ▸ hv), ← hi, ← en]
    split_ifs <;> simp [SameHardware, *]
  · rw [cycleResult_eos hr hp he hv hs,
      cycleResult_eos (hi ▸ hr) (ep ▸ hp) (ee ▸ he) (hi ▸ hv) (hi ▸ hs), ← ec, ← es]
    split_ifs <;> simp [SameHardware, *]
  · rw [cycleResult_stall hr hp he hv hs,
      cycleResult_stall (hi ▸ hr) (ep ▸ hp) (ee ▸ he) (hi ▸ hv) (hi ▸ hs)]
    exact ⟨ep, ec, es, er, eb, em⟩

end

open Sys2Proof.Machine in
/-- Settles O31: each kind of cycle writes the registers by the hardware and this cycle's inputs alone. -/
theorem hardwareHasNoHiddenState : Obligations.HardwareHasNoHiddenState := by
  intro s s' t t' h
  refine ⟨h.out_eq, fun hi ht ht' => ?_⟩
  rw [(step_next_iff s t).1 ht, (step_next_iff s' t').1 ht']
  exact h.cycleResult_of_inputs_eq hi

end Sys2Proof

/-! ### `decode(M, B, strict)` without its accumulators -/

namespace Sys2Proof.Machine

/-- The outcome with `n` more bits consumed before it. -/
def StreamOutcome.addBits : StreamOutcome → Nat → StreamOutcome
  | .done k, n => .done (k + n)
  | .brokenTree node b k, n => .brokenTree node b (k + n)
  | .truncatedStream node k, n => .truncatedStream node (k + n)

/-- The registers in which a run with this outcome ends (R88, R104, R124). -/
def StreamOutcome.report : StreamOutcome → Phase × NodeIndex × ErrCode × Bool
  | .done _ => (.done, 0, .none, false)
  | .brokenTree node b _ => (.error, node, .brokenTree, b)
  | .truncatedStream node _ => (.error, node, .truncatedStream, false)

/-- A decoding with one symbol handed over before it. -/
def afterSymbol (c : SymbolByte) (r : List SymbolByte × StreamOutcome) : List SymbolByte × StreamOutcome :=
  (c :: r.1, r.2)

/-- A decoding with one bit consumed before it. -/
def afterBit (r : List SymbolByte × StreamOutcome) : List SymbolByte × StreamOutcome := (r.1, r.2.addBits 1)

theorem StreamOutcome.addBits_addBits (o : StreamOutcome) (m n : Nat) :
    (o.addBits m).addBits n = o.addBits (n + m) := by
  cases o <;> simp [StreamOutcome.addBits, Nat.add_assoc, Nat.add_comm m n]

@[simp] theorem StreamOutcome.consumed_addBits (o : StreamOutcome) (n : Nat) :
    (o.addBits n).consumed = o.consumed + n := by cases o <;> rfl

@[simp] theorem StreamOutcome.report_addBits (o : StreamOutcome) (n : Nat) : (o.addBits n).report = o.report := by
  cases o <;> rfl

theorem runLength_afterSymbol (c : SymbolByte) (r : List SymbolByte × StreamOutcome) :
    runLength (afterSymbol c r) = 1 + runLength r := by
  obtain ⟨syms, o⟩ := r
  cases o <;> simp only [afterSymbol, runLength, List.length_cons] <;> omega

theorem runLength_afterBit (r : List SymbolByte × StreamOutcome) : runLength (afterBit r) = 1 + runLength r := by
  obtain ⟨syms, o⟩ := r
  cases o <;> simp only [afterBit, StreamOutcome.addBits, runLength] <;> omega

section Loop

variable {M : Image} {strict : Bool} {cur : NodeIndex} {acc : List SymbolByte} {k : Nat} {b : Bool} {bs : List Bool}

theorem decodeFrom_nil : decodeFrom M strict [] cur acc k =
    (acc, if cur ≠ 0#9 ∧ strict = true then .truncatedStream cur k else .done k) := by
  by_cases hc : cur = 0#9 <;> cases strict <;> simp [decodeFrom, hc]

/-- A bit at a LEAF, or one whose link is missing, ends the loop. -/
theorem decodeFrom_cons_broken (hb : tagBit (M cur) = true ∨ wordLink (M cur) b = 0#9) :
    decodeFrom M strict (b :: bs) cur acc k = (acc, .brokenTree cur b (k + 1)) := by
  rcases hb with hb | hb <;> simp [decodeFrom, hb]

/-- A bit that leads to a LEAF emits its symbol and returns to the root. -/
theorem decodeFrom_cons_leaf (ht : tagBit (M cur) = false) (hl : wordLink (M cur) b ≠ 0#9)
    (hleaf : tagBit (M (wordLink (M cur) b)) = true) :
    decodeFrom M strict (b :: bs) cur acc k =
      decodeFrom M strict bs 0#9 (acc ++ [symField (M (wordLink (M cur) b))]) (k + 1) := by
  simp [decodeFrom, ht, hl, hleaf]

/-- A bit that leads to a NODE moves there. -/
theorem decodeFrom_cons_node (ht : tagBit (M cur) = false) (hl : wordLink (M cur) b ≠ 0#9)
    (hnode : tagBit (M (wordLink (M cur) b)) = false) :
    decodeFrom M strict (b :: bs) cur acc k = decodeFrom M strict bs (wordLink (M cur) b) acc (k + 1) := by
  simp [decodeFrom, ht, hl, hnode]

/-- The three ways the loop takes a bit. -/
theorem loop_cases (M : Image) (cur : NodeIndex) (b : Bool) :
    (tagBit (M cur) = true ∨ wordLink (M cur) b = 0#9) ∨
    (tagBit (M cur) = false ∧ wordLink (M cur) b ≠ 0#9 ∧ tagBit (M (wordLink (M cur) b)) = true) ∨
    (tagBit (M cur) = false ∧ wordLink (M cur) b ≠ 0#9 ∧ tagBit (M (wordLink (M cur) b)) = false) := by
  cases tagBit (M cur) <;> cases tagBit (M (wordLink (M cur) b)) <;> simp [em]

variable (M strict cur acc k bs)

/-- The accumulators of R88's loop stand in front of what it decodes from the rest of the stream. -/
theorem decodeFrom_eq : decodeFrom M strict bs cur acc k =
    (acc ++ (decodeFrom M strict bs cur [] 0).1, (decodeFrom M strict bs cur [] 0).2.addBits k) := by
  induction bs generalizing cur acc k with
  | nil =>
    rw [decodeFrom_nil, decodeFrom_nil]
    split_ifs <;> simp [StreamOutcome.addBits]
  | cons b bs ih =>
    rcases loop_cases M cur b with hb | ⟨ht, hl, hleaf⟩ | ⟨ht, hl, hnode⟩
    · simp [decodeFrom_cons_broken hb, StreamOutcome.addBits, Nat.add_comm]
    · rw [decodeFrom_cons_leaf ht hl hleaf, decodeFrom_cons_leaf ht hl hleaf, ih 0#9 (acc ++ _),
        ih 0#9 ([] ++ _)]
      simp [StreamOutcome.addBits_addBits]
    · rw [decodeFrom_cons_node ht hl hnode, decodeFrom_cons_node ht hl hnode, ih _ acc, ih _ [] (0 + 1)]
      simp [StreamOutcome.addBits_addBits]

/-- Every decoding needs an active cycle. -/
theorem runLength_decodeFrom_pos : 0 < runLength (decodeFrom M strict bs cur acc k) := by
  induction bs generalizing cur acc k with
  | nil =>
    rw [decodeFrom_nil]
    split_ifs <;> simp [runLength]
  | cons b bs ih =>
    rcases loop_cases M cur b with hb | ⟨ht, hl, hleaf⟩ | ⟨ht, hl, hnode⟩
    · rw [decodeFrom_cons_broken hb, runLength]; omega
    · rw [decodeFrom_cons_leaf ht hl hleaf]; exact ih ..
    · rw [decodeFrom_cons_node ht hl hnode]; exact ih ..

end Loop

/-- What `decode` makes of the rest of the stream from a state in RUN: the symbol on offer is handed over first. -/
def pendingDecode (s : State) (rest : List Bool) : List SymbolByte × StreamOutcome :=
  if emit s then afterSymbol (symField s.node) (decodeFrom s.mem.read s.strict rest 0#9 [] 0)
  else decodeFrom s.mem.read s.strict rest s.cursor [] 0

variable {s w : State} {bits rest : List Bool}

theorem emit_false_of_node (ht : tagBit s.node = false) : emit s = false := by simp [emit, isLeaf, ht]

theorem pendingDecode_emit (he : emit s = true) :
    pendingDecode s rest = afterSymbol (symField s.node) (decodeFrom s.mem.read s.strict rest 0#9 [] 0) := if_pos he

theorem pendingDecode_noEmit (he : emit s = false) :
    pendingDecode s rest = decodeFrom s.mem.read s.strict rest s.cursor [] 0 := if_neg (by simp [he])

theorem pendingDecode_root (hc : s.cursor = 0#9) :
    pendingDecode s rest = decodeStream s.mem.read rest s.strict := by
  rw [pendingDecode_noEmit (emit_false_of_root hc), hc, decodeStream]

@[simp] theorem pendingDecode_endCycle : pendingDecode s.endCycle rest = pendingDecode s rest := rfl

theorem runLength_pendingDecode_pos : 0 < runLength (pendingDecode s rest) := by
  unfold pendingDecode
  split_ifs
  · rw [runLength_afterSymbol]; omega
  · exact runLength_decodeFrom_pos ..

/-- R81 at the event level: a bit that selects a present link leaves the rest of the stream to be decoded from there. -/
theorem pendingDecode_followed {b : Bool} (hp : s.phase = .run) (ht : tagBit s.node = false)
    (hl : wordLink s.node b ≠ 0#9) :
    pendingDecode s (b :: rest) = afterBit (pendingDecode ((s.bitConsumed b).setCursor (wordLink s.node b)) rest) := by
  rw [pendingDecode_noEmit (emit_false_of_node ht)]
  cases hleaf : tagBit (s.mem.read (wordLink s.node b))
  · have he : emit ((s.bitConsumed b).setCursor (wordLink s.node b)) = false := emit_false_of_node hleaf
    rw [pendingDecode_noEmit he, decodeFrom_cons_node ht hl hleaf, decodeFrom_eq]
    rfl
  · have he : emit ((s.bitConsumed b).setCursor (wordLink s.node b)) = true := (emit_iff _).2 ⟨hp, hl, hleaf⟩
    rw [pendingDecode_emit he, decodeFrom_cons_leaf ht hl hleaf, decodeFrom_eq]
    rfl

/-- R82 and R84 at the event level: a bit with no link to follow ends the decoding there. -/
theorem pendingDecode_broken {b : Bool} (he : emit s = false)
    (hb : tagBit s.node = true ∨ wordLink s.node b = 0#9) :
    pendingDecode s (b :: rest) = ([], .brokenTree s.cursor b 1) := by
  rw [pendingDecode_noEmit he, decodeFrom_cons_broken hb]

/-- R104 at the event level: what the end of the stream makes of the cursor. -/
theorem pendingDecode_nil (he : emit s = false) :
    pendingDecode s [] = ([], if s.cursor ≠ 0#9 ∧ s.strict = true then .truncatedStream s.cursor 0 else .done 0) := by
  rw [pendingDecode_noEmit he, decodeFrom_nil]

/-! ### A run that agrees with a decoding -/

/-- The run from `w` with the stream `bits` has ended in `u` as the decoding `r` says (R12, R88). -/
structure EndsAs (w : State) (bits : List Bool) (r : List SymbolByte × StreamOutcome) (u : State) : Prop where
  taken : u.taken = w.taken ++ r.1
  consumed : u.consumed = w.consumed ++ bits.take r.2.consumed
  strict : u.strict = w.strict
  mem : u.mem = w.mem
  report : (u.phase, u.cursor, u.err, u.errBit) = r.2.report

/-- Over `k` cycles the run from `w` agrees with the decoding `r` of `bits`: it ends exactly with the last of the
active cycles that `r` needs, and then as `r` says (R88, R157). -/
structure RunAgrees (k : Nat) (bits : List Bool) (w : State) (r : List SymbolByte × StreamOutcome) : Prop where
  bounded : activeCycles k w ≤ runLength r
  ended_iff : runEnded (runCycles k w) = true ↔ activeCycles k w = runLength r
  result : runEnded (runCycles k w) = true → EndsAs w bits r (runCycles k w)

theorem runCycles_succ_one (k : Nat) (s : State) : runCycles (k + 1) s = runCycles k (runCycles 1 s) := by
  rw [runCycles_succ, runCycles_one]

theorem runEnded_of_phase_run (hp : s.phase = .run) : runEnded s = false := by simp [runEnded, hp]

/-- One more cycle in front: it counts in `r` if it is active, and what it records stands in front of the rest. -/
theorem RunAgrees.cons {k : Nat} {r r' : List SymbolByte × StreamOutcome} (h : RunAgrees k rest (runCycles 1 w) r')
    (hlen : runLength r = (if activeCycle w then 1 else 0) + runLength r')
    (hend : ∀ u, EndsAs (runCycles 1 w) rest r' u → EndsAs w bits r u) : RunAgrees (k + 1) bits w r := by
  obtain ⟨hb, hi, hr⟩ := h
  rw [← runCycles_succ_one] at hi hr
  refine ⟨?_, hi.trans ?_, fun hu => hend _ (hr hu)⟩ <;> rw [hlen, activeCycles] <;> omega

/-- A host that keeps off for `k + 1` cycles keeps off for the last `k` of them. -/
theorem hostKeepsOff_tail {k : Nat} (hk : ∀ j, j < k + 1 → hostKeepsOff (runCycles j s) = true) (j : Nat) (hj : j < k) :
    hostKeepsOff (runCycles j (runCycles 1 s)) = true := by
  rw [← runCycles_succ_one]
  exact hk (j + 1) (Nat.succ_lt_succ hj)

/-- Outside RUN with the host off, nothing changes but the script. -/
theorem cycleResult_rest (hp : s.phase ≠ .run) (hk : hostKeepsOff s = true) : cycleResult s = s := by
  simp only [hostKeepsOff, Bool.and_eq_true, Bool.or_eq_true, Bool.not_eq_true', beq_iff_eq, hp, false_or] at hk
  obtain ⟨hr, hs, ht⟩ := hk
  simp [cycleResult_host hr hp, hs, ht]

theorem activeCycle_rest (hp : s.phase ≠ .run) : activeCycle s = false := by
  simp [activeCycle, consumesBit, takesSymbol, seesEos, bitReady, symValid, emit, hp]

/-- R107: outside RUN no cycle is active and the state stays, but for the script, as long as the host keeps off. -/
theorem runCycles_rest {k : Nat} (hp : s.phase ≠ .run) (hk : ∀ j, j < k → hostKeepsOff (runCycles j s) = true) :
    activeCycles k s = 0 ∧ runCycles k s = State.endCycle^[k] s := by
  induction k generalizing s with
  | zero => exact ⟨rfl, rfl⟩
  | succ k ih =>
    have h1 : runCycles 1 s = s.endCycle := by
      rw [runCycles_one, cycleResult_rest hp (hk 0 (Nat.succ_pos k))]
    obtain ⟨ha, hu⟩ := ih (s := s.endCycle) hp (h1 ▸ hostKeepsOff_tail hk)
    rw [activeCycles, activeCycle_rest hp, runCycles_succ_one k, h1, ha, hu]
    exact ⟨rfl, rfl⟩

theorem EndsAs.iterate_endCycle {r : List SymbolByte × StreamOutcome} {u : State} (h : EndsAs w bits r u) (k : Nat) :
    EndsAs w bits r (State.endCycle^[k] u) := by
  induction k generalizing u with
  | zero => exact h
  | succ k ih => exact ih ⟨h.taken, h.consumed, h.strict, h.mem, h.report⟩

/-- The phase in which a run with an outcome ends is DONE or ERROR. -/
theorem EndsAs.runEnded {r : List SymbolByte × StreamOutcome} {u : State} (h : EndsAs w bits r u) :
    runEnded u = true := by
  have hp : u.phase = r.2.report.1 := congrArg Prod.fst h.report
  rw [Machine.runEnded, hp]
  cases r.2 <;> rfl

theorem phase_ne_run_of_runEnded (h : runEnded s = true) : s.phase ≠ .run := fun hp => by
  simp [runEnded_of_phase_run hp] at h

/-- The active cycle that ends a run, with the host off in the cycles after it. -/
theorem RunAgrees.last {k : Nat} {r : List SymbolByte × StreamOutcome} (ha : activeCycle w = true)
    (hlen : runLength r = 1) (hend : EndsAs w bits r (runCycles 1 w))
    (hk : ∀ j, j < k → hostKeepsOff (runCycles j (runCycles 1 w)) = true) : RunAgrees (k + 1) bits w r := by
  obtain ⟨h0, hu⟩ := runCycles_rest (phase_ne_run_of_runEnded hend.runEnded) hk
  have hfinal : EndsAs w bits r (runCycles (k + 1) w) := by
    rw [runCycles_succ_one, hu]
    exact hend.iterate_endCycle k
  have hcount : activeCycles (k + 1) w = runLength r := by simp [activeCycles, ha, h0, hlen]
  exact ⟨hcount.le, iff_of_true hfinal.runEnded hcount, fun _ => hfinal⟩

/-! ### Every delivered stream is decoded -/

theorem delivers_succ_iff {k : Nat} : delivers (k + 1) rest s = true ↔
    hostKeepsOff s = true ∧ sourceObeys rest s = true ∧
      delivers k (if consumesBit s then rest.tail else rest) (runCycles 1 s) = true := by
  simp [delivers, and_assoc]

theorem hostKeepsOff_of_delivers {k : Nat} (h : delivers k rest s = true) {j : Nat} (hj : j < k) :
    hostKeepsOff (runCycles j s) = true := by
  induction j generalizing k rest s with
  | zero =>
    obtain ⟨k, rfl⟩ := Nat.exists_eq_succ_of_ne_zero hj.ne'
    exact (delivers_succ_iff.1 h).1
  | succ j ih =>
    obtain ⟨k, rfl⟩ := Nat.exists_eq_succ_of_ne_zero (Nat.ne_zero_of_lt hj)
    rw [runCycles_succ_one]
    exact ih (delivers_succ_iff.1 h).2.2 (Nat.lt_of_succ_lt_succ hj)

theorem rst_false_of_hostKeepsOff (h : hostKeepsOff s = true) : s.inputs.rst = false := by
  simp only [hostKeepsOff, Bool.and_eq_true, Bool.not_eq_true'] at h
  exact h.1

theorem consumesBit_of_noEmit (hp : s.phase = .run) (he : emit s = false) : consumesBit s = s.inputs.bitValid := by
  simp [consumesBit, bitReady, hp, he]

theorem consumesBit_of_emit (he : emit s = true) : consumesBit s = false := by simp [consumesBit, bitReady, he]

theorem activeCycle_of_emit (he : emit s = true) : activeCycle s = s.inputs.symReady := by
  simp [activeCycle, consumesBit, takesSymbol, seesEos, bitReady, symValid, he]

theorem activeCycle_of_noEmit (hp : s.phase = .run) (he : emit s = false) :
    activeCycle s = (s.inputs.bitValid || s.inputs.bitEos) := by
  cases hv : s.inputs.bitValid <;>
    simp [activeCycle, consumesBit, takesSymbol, seesEos, bitReady, symValid, hp, he, hv]

/-- R150 items 1 and 3: a bit that is consumed is the head of the stream. -/
theorem stream_of_sourceObeys_bit (hc : consumesBit s = true) (h : sourceObeys rest s = true) :
    rest = s.inputs.bitData :: rest.tail := by
  have hhead : rest.head? = some s.inputs.bitData := by simpa [sourceObeys, hc] using h
  exact List.eq_cons_of_mem_head? hhead

/-- R150 item 3: the end of the stream is seen only when it is empty. -/
theorem stream_of_sourceObeys_eos (hc : consumesBit s = false) (he : seesEos s = true)
    (h : sourceObeys rest s = true) : rest = [] := by
  simpa [sourceObeys, hc, he] using h

variable {k : Nat}

theorem RunAgrees.stall (hw : cycleResult w = w) (ha : activeCycle w = false)
    (h : RunAgrees k bits w.endCycle (pendingDecode w.endCycle bits)) :
    RunAgrees (k + 1) bits w (pendingDecode w bits) := by
  have h1 : runCycles 1 w = w.endCycle := by rw [runCycles_one, hw]
  refine RunAgrees.cons (h1 ▸ h) (by simp [ha, h1]) fun u hu => ?_
  rw [h1] at hu
  exact ⟨hu.taken, hu.consumed, hu.strict, hu.mem, hu.report⟩

/-- R83: the symbol on offer is handed over, and the rest is decoded from the root. -/
theorem RunAgrees.handOver (he : emit w = true) (ha : activeCycle w = true)
    (hw : cycleResult w = (w.sinkTakes (symField w.node)).setCursor 0#9)
    (h : RunAgrees k bits (cycleResult w).endCycle (pendingDecode (cycleResult w).endCycle bits)) :
    RunAgrees (k + 1) bits w (pendingDecode w bits) := by
  have hroot : pendingDecode (cycleResult w).endCycle bits = decodeFrom w.mem.read w.strict bits 0#9 [] 0 := by
    rw [hw, pendingDecode_root rfl]; rfl
  rw [hroot, ← runCycles_one] at h
  rw [pendingDecode_emit he]
  refine h.cons (by rw [runLength_afterSymbol, if_pos ha]) fun u hu => ?_
  rw [runCycles_one, hw] at hu
  exact ⟨by simp [hu.taken, afterSymbol], hu.consumed, hu.strict, hu.mem, hu.report⟩

/-- R81: a bit is consumed, and the rest is decoded from the link it selects. -/
theorem RunAgrees.followLink {b : Bool} (hp : w.phase = .run) (ht : tagBit w.node = false)
    (hl : wordLink w.node b ≠ 0#9) (ha : activeCycle w = true)
    (hw : cycleResult w = (w.bitConsumed b).setCursor (wordLink w.node b))
    (h : RunAgrees k rest (cycleResult w).endCycle (pendingDecode (cycleResult w).endCycle rest)) :
    RunAgrees (k + 1) (b :: rest) w (pendingDecode w (b :: rest)) := by
  rw [pendingDecode_followed hp ht hl, ← hw, ← pendingDecode_endCycle]
  rw [← runCycles_one] at h ⊢
  refine h.cons (by rw [runLength_afterBit, if_pos ha]) fun u hu => ?_
  rw [runCycles_one, hw] at hu ⊢
  exact ⟨hu.taken, by simp [hu.consumed, afterBit], hu.strict, hu.mem, by simp [hu.report, afterBit]⟩

/-- R82, R84: a bit with no link to follow ends the run in its own cycle. -/
theorem endsAs_brokenTree {b : Bool} (he : emit w = false) (hb : tagBit w.node = true ∨ wordLink w.node b = 0#9)
    (hw : cycleResult w = (w.bitConsumed b).raiseBrokenTree b) :
    EndsAs w (b :: rest) (pendingDecode w (b :: rest)) (runCycles 1 w) := by
  rw [pendingDecode_broken he hb, runCycles_one, hw]
  exact ⟨by simp, by simp [StreamOutcome.consumed], rfl, rfl, rfl⟩

/-- R104: the end of the stream ends the run. -/
theorem endsAs_eos (he : emit w = false) (herr : w.err = .none) (hbit : w.errBit = false)
    (hw : cycleResult w = if w.cursor = 0#9 then w.setPhase .done
      else if w.strict then w.raiseTruncatedStream else (w.setPhase .done).setCursor 0#9) :
    EndsAs w [] (pendingDecode w []) (runCycles 1 w) := by
  rw [pendingDecode_nil he, runCycles_one, hw]
  by_cases hc : w.cursor = 0#9
  · constructor <;> simp [hc, StreamOutcome.report, herr, hbit]
  · cases hs : w.strict <;> constructor <;> simp [hc, hs, StreamOutcome.report, herr, hbit]

/-- R88: from a state in RUN with a clear fault report, a delivered stream is decoded, under any stalls. -/
theorem runAgrees_of_delivers (hp : w.phase = .run) (herr : w.err = .none) (hbit : w.errBit = false)
    (hd : delivers k bits w = true) : RunAgrees k bits w (pendingDecode w bits) := by
  induction k generalizing w bits with
  | zero =>
    have hne : runEnded w = false := runEnded_of_phase_run hp
    have hpos : 0 < runLength (pendingDecode w bits) := runLength_pendingDecode_pos
    exact ⟨hpos.le, by simp [hne, activeCycles, hpos.ne], by simp [hne]⟩
  | succ k ih =>
    obtain ⟨hk, ho, hd'⟩ := delivers_succ_iff.1 hd
    have hr := rst_false_of_hostKeepsOff hk
    have hoff : ∀ j, j < k → hostKeepsOff (runCycles j (runCycles 1 w)) = true :=
      fun j => hostKeepsOff_of_delivers hd'
    rw [runCycles_one] at hd'
    rcases cycle_cases w with hr' | ⟨-, hp'⟩ | ⟨-, he⟩ | ⟨-, -, he, hv⟩ | ⟨-, -, he, hv, hs⟩ | ⟨-, -, he, hv, hs⟩
    · simp [hr] at hr'
    · exact absurd hp hp'
    · have hw := cycleResult_emit hr he
      have ha := activeCycle_of_emit he
      rw [consumesBit_of_emit he] at hd'
      cases hy : w.inputs.symReady <;> rw [hy] at hw ha
      · rw [hw] at hd'
        exact .stall hw ha (ih hp herr hbit hd')
      · refine .handOver he ha hw ?_
        rw [hw] at hd' ⊢
        exact ih hp herr hbit hd'
    · have hw := cycleResult_bit hr hp he hv
      have hc : consumesBit w = true := by rw [consumesBit_of_noEmit hp he, hv]
      have ha : activeCycle w = true := by simp [activeCycle, hc]
      rw [if_pos hc] at hd'
      rw [stream_of_sourceObeys_bit hc ho]
      by_cases hb : tagBit w.node = true ∨ wordLink w.node w.inputs.bitData = 0#9
      · rw [if_pos hb] at hw
        exact .last ha (by rw [pendingDecode_broken he hb]; rfl) (endsAs_brokenTree he hb hw) hoff
      · rw [if_neg hb] at hw
        obtain ⟨ht, hl⟩ := not_or.1 hb
        refine .followLink hp (by simpa using ht) hl ha hw ?_
        rw [hw] at hd' ⊢
        exact ih hp herr hbit hd'
    · have hc : consumesBit w = false := by rw [consumesBit_of_noEmit hp he, hv]
      have hseen : seesEos w = true := by simp [seesEos, (bitReady_iff w).2 ⟨hp, he⟩, hv, hs]
      obtain rfl := stream_of_sourceObeys_eos hc hseen ho
      refine .last (by simp [activeCycle, hseen]) ?_ (endsAs_eos he herr hbit (cycleResult_eos hr hp he hv hs)) hoff
      rw [pendingDecode_nil he]
      split_ifs <;> rfl
    · have hw := cycleResult_stall hr hp he hv hs
      have ha : activeCycle w = false := by rw [activeCycle_of_noEmit hp he, hv, hs]; rfl
      rw [hw, consumesBit_of_noEmit hp he, hv] at hd'
      exact .stall hw ha (ih hp herr hbit hd')

/-! ### The duties of the source deliver the stream -/

/-- R107: once the run has ended, nothing of the stream is looked at. -/
theorem delivers_rest (hp : s.phase ≠ .run) (hk : ∀ j, j < k → hostKeepsOff (runCycles j s) = true) :
    delivers k rest s = true := by
  induction k generalizing s rest with
  | zero => rfl
  | succ k ih =>
    have hoff : hostKeepsOff s = true := hk 0 (Nat.succ_pos k)
    have hp' : (runCycles 1 s).phase ≠ .run := by rwa [runCycles_one, cycleResult_rest hp hoff]
    refine delivers_succ_iff.2 ⟨hoff, ?_, ih hp' (hostKeepsOff_tail hk)⟩
    simp [sourceObeys, consumesBit, seesEos, bitReady, hp]

/-- R150 items 1 and 3 in one cycle: a bit comes in order, and the end is not seen too early. -/
theorem sourceObeys_of_duties (hb : bitInOrder rest s = true) (he : endRaised rest s = true) :
    sourceObeys rest s = true := by
  unfold sourceObeys
  split_ifs with hc hs
  · simpa [bitInOrder, hc] using hb
  · have heos : s.inputs.bitEos = true := by
      simp only [seesEos, Bool.and_eq_true] at hs
      exact hs.2
    simp only [endRaised, heos, if_true, Bool.and_eq_true] at he
    exact he.2
  · rfl

theorem sourceOwes_succ_iff : sourceOwes (k + 1) rest s = true ↔
    bitInOrder rest s = true ∧ endRaised rest s = true ∧ sourceHolds s (runCycles 1 s).inputs = true ∧
      endHolds s (runCycles 1 s) = true ∧ (runEnds s (runCycles 1 s) = true ∨
        sourceOwes k (if consumesBit s then rest.tail else rest) (runCycles 1 s) = true) := by
  simp [sourceOwes, and_assoc]

/-- R150 items 1 to 3 and R153 in a run deliver its stream. -/
theorem delivers_of_sourceOwes (hp : s.phase = .run) (ho : sourceOwes k rest s = true)
    (hk : ∀ j, j < k → hostKeepsOff (runCycles j s) = true) : delivers k rest s = true := by
  induction k generalizing s rest with
  | zero => rfl
  | succ k ih =>
    obtain ⟨hb, he, -, -, hnext⟩ := sourceOwes_succ_iff.1 ho
    refine delivers_succ_iff.2 ⟨hk 0 (Nat.succ_pos k), sourceObeys_of_duties hb he, ?_⟩
    by_cases hp' : (runCycles 1 s).phase = .run
    · have hends : runEnds s (runCycles 1 s) = false := by simp [runEnds, hp']
      exact ih hp' (hnext.resolve_left (by simp [hends])) (hostKeepsOff_tail hk)
    · exact delivers_rest hp' (hostKeepsOff_tail hk)

/-! ### The START cycle -/

/-- R102, R103: an accepted START leaves a run at the root with a clear fault report, the records as they were. -/
theorem start_result (hp : s.phase ≠ .run) (hr : s.inputs.rst = false) (hs : s.inputs.start = true) :
    (runCycles 1 s).phase = .run ∧ (runCycles 1 s).cursor = 0#9 ∧ (runCycles 1 s).strict = s.inputs.strictI ∧
      (runCycles 1 s).err = .none ∧ (runCycles 1 s).errBit = false ∧ (runCycles 1 s).taken = s.taken ∧
      (runCycles 1 s).consumed = s.consumed := by
  rw [runCycles_one, cycleResult_host hr hp]
  cases s.inputs.twEn <;> simp [hs]

/-- R88, R12: after an accepted START a delivered stream is decoded from the root. -/
theorem runAgrees_after_start (hp : s.phase ≠ .run) (hr : s.inputs.rst = false) (hs : s.inputs.start = true)
    (hd : delivers k bits (runCycles 1 s) = true) :
    RunAgrees k bits (runCycles 1 s) (decodeStream (runCycles 1 s).mem.read bits s.inputs.strictI) := by
  obtain ⟨hp', hc, hstrict, herr, hbit, -, -⟩ := start_result hp hr hs
  rw [← hstrict, ← pendingDecode_root hc]
  exact runAgrees_of_delivers hp' herr hbit hd

/-- R150 over the START cycle: what the source owes there it owes in the run. -/
theorem sourceOwes_after_start (hp : s.phase ≠ .run) (ho : sourceOwes (k + 1) bits s = true) :
    sourceOwes k bits (runCycles 1 s) = true := by
  obtain ⟨-, -, -, -, hnext⟩ := sourceOwes_succ_iff.1 ho
  simpa [runEnds, consumesBit, bitReady, hp] using hnext

theorem eq_runCycles_one {t : State} (h : step s = .next t) : t = runCycles 1 s := by
  rw [runCycles_one]; exact (step_next_iff s t).1 h

end Sys2Proof.Machine

namespace Sys2Proof

open Sys2Proof.Machine in
/-- Settles O51: the duties deliver the stream, and a delivered stream is decoded cycle by cycle. -/
theorem runUnderItsDutiesAgreesWithDecode : Obligations.RunUnderItsDutiesAgreesWithDecode := by
  intro s t bits k hp hr hs hst ho hk
  obtain rfl := eq_runCycles_one hst
  obtain ⟨hp', -, hstrict, -, -, htaken, hconsumed⟩ := start_result hp hr hs
  have hd := delivers_of_sourceOwes hp' (sourceOwes_after_start hp ho) hk
  obtain ⟨hbound, hended, hresult⟩ := runAgrees_after_start hp hr hs hd
  refine ⟨hbound, hended, fun hu => ?_⟩
  obtain ⟨h1, h2, h3, h4, h5⟩ := hresult hu
  refine ⟨htaken ▸ h1, hconsumed ▸ h2, h3.trans hstrict, h4, h5.trans ?_⟩
  cases (decodeStream (runCycles 1 s).mem.read bits s.inputs.strictI).2 <;> rfl

end Sys2Proof

/-! ### The registers over one cycle and over a run (R22 to R26, R29, R33) -/

namespace Sys2Proof.Machine

variable {s : State}

/-- R33 item 6: in RUN no cycle writes the memory. -/
theorem cycleResult_mem_of_run (hp : s.phase = .run) : (cycleResult s).mem = s.mem := by
  rcases cycle_cases s with
    hr | ⟨-, hp'⟩ | ⟨hr, he⟩ | ⟨hr, -, he, hv⟩ | ⟨hr, -, he, hv, hs⟩ | ⟨hr, -, he, hv, hs⟩
  · simp [cycleResult_reset hr, handshakes_eq]
  · exact absurd hp hp'
  · rw [cycleResult_emit hr he]; split_ifs <;> simp
  · rw [cycleResult_bit hr hp he hv]; split_ifs <;> simp
  · rw [cycleResult_eos hr hp he hv hs]; split_ifs <;> simp
  · rw [cycleResult_stall hr hp he hv hs]

/-- R83: a symbol on offer that is not taken leaves everything as it was. -/
theorem cycleResult_held (hr : s.inputs.rst = false) (he : emit s = true) (hs : s.inputs.symReady = false) :
    cycleResult s = s := by
  simp [cycleResult_emit hr he, hs]

/-- In RUN and without reset, a cycle keeps `strict`, and it changes the report only where it enters ERROR. -/
theorem cycleResult_controls_of_run (hr : s.inputs.rst = false) (hp : s.phase = .run) :
    (cycleResult s).strict = s.strict ∧
      ((cycleResult s).phase = .error ∨ (cycleResult s).err = s.err ∧ (cycleResult s).errBit = s.errBit) := by
  rcases cycle_cases s with
    hr' | ⟨-, hp'⟩ | ⟨-, he⟩ | ⟨-, -, he, hv⟩ | ⟨-, -, he, hv, hs⟩ | ⟨-, -, he, hv, hs⟩
  · simp [hr] at hr'
  · exact absurd hp hp'
  · rw [cycleResult_emit hr he]; split_ifs <;> simp
  · rw [cycleResult_bit hr hp he hv]; split_ifs <;> simp
  · rw [cycleResult_eos hr hp he hv hs]; split_ifs <;> simp
  · simp [cycleResult_stall hr hp he hv hs]

/-- Outside RUN and without reset or START, a cycle keeps the phase, `strict` and the report. -/
theorem cycleResult_controls_of_noStart (hr : s.inputs.rst = false) (hp : s.phase ≠ .run)
    (hs : s.inputs.start = false) :
    (cycleResult s).phase = s.phase ∧ (cycleResult s).strict = s.strict ∧ (cycleResult s).err = s.err ∧
      (cycleResult s).errBit = s.errBit := by
  cases ht : s.inputs.twEn <;> simp [cycleResult_host hr hp, hs, ht]

/-- START enters RUN, with or without a WRNODE at the same edge. -/
theorem cycleResult_phase_of_start (hr : s.inputs.rst = false) (hp : s.phase ≠ .run) (hs : s.inputs.start = true) :
    (cycleResult s).phase = .run := by
  simp [cycleResult_host hr hp, hs]

theorem seesEos_of_noEmit (hp : s.phase = .run) (he : emit s = false) (hv : s.inputs.bitValid = false)
    (hs : s.inputs.bitEos = true) : seesEos s = true := by
  simp [seesEos, bitReady, hp, he, hv, hs]

/-- What holds in each of `k + 1` cycles holds in the first, and in each of the `k` that follow it. -/
theorem runCycles_head_tail (P : State → Prop) {k : Nat} (h : ∀ j, j < k + 1 → P (runCycles j s)) :
    P s ∧ ∀ j, j < k → P (runCycles j (runCycles 1 s)) := by
  refine ⟨h 0 k.succ_pos, fun j hj => ?_⟩
  rw [← runCycles_succ_one]
  exact h (j + 1) (Nat.succ_lt_succ hj)

/-- R33 item 6, R47: over any number of cycles of a run the memory is kept. -/
theorem runCycles_mem_of_run {k : Nat} (hk : ∀ j, j < k → (runCycles j s).phase = .run) :
    (runCycles k s).mem = s.mem := by
  induction k generalizing s with
  | zero => rfl
  | succ k ih =>
    obtain ⟨hp, htail⟩ := runCycles_head_tail (·.phase = .run) hk
    calc (runCycles (k + 1) s).mem
      _ = (runCycles 1 s).mem := by rw [runCycles_succ_one, ih htail]
      _ = s.mem := by rw [runCycles_one, State.endCycle_mem, cycleResult_mem_of_run hp]

end Sys2Proof.Machine

namespace Sys2Proof

section
open Sys2Proof.Machine

theorem SameHardware.refl (s : State) : SameHardware s s := ⟨rfl, rfl, rfl, rfl, rfl, rfl⟩

theorem sameHardware_endCycle (s : State) : SameHardware s.endCycle s := .refl s

theorem SameHardware.trans {s t u : State} (h : SameHardware s t) (h' : SameHardware t u) : SameHardware s u := by
  obtain ⟨hp, hc, hs, hr, hb, hm⟩ := h
  obtain ⟨hp', hc', hs', hr', hb', hm'⟩ := h'
  exact ⟨hp.trans hp', hc.trans hc', hs.trans hs', hr.trans hr', hb.trans hb', hm.trans hm'⟩

/-- R29, R83: over any number of cycles a symbol on offer that is not taken holds the hardware and what the sink has
taken. -/
theorem runCycles_held {k : Nat} {s : State} (he : emit s = true)
    (hk : ∀ j, j < k → (runCycles j s).inputs.rst = false ∧ (runCycles j s).inputs.symReady = false) :
    SameHardware (runCycles k s) s ∧ (runCycles k s).taken = s.taken := by
  induction k generalizing s with
  | zero => exact ⟨.refl s, rfl⟩
  | succ k ih =>
    obtain ⟨⟨hr, hs⟩, htail⟩ := runCycles_head_tail (fun u => u.inputs.rst = false ∧ u.inputs.symReady = false) hk
    have h1 : runCycles 1 s = s.endCycle := by rw [runCycles_one, cycleResult_held hr he hs]
    rw [h1] at htail
    rw [runCycles_succ_one, h1]
    obtain ⟨hw, ht⟩ := ih ((sameHardware_endCycle s).emit_eq.trans he) htail
    exact ⟨hw.trans (sameHardware_endCycle s), ht⟩

/-! ### What keeps the invariant -/

/-- The invariant speaks of the hardware only. -/
theorem Inv.of_sameHardware {s t : State} (h : Inv s) (e : SameHardware t s) : Inv t := by
  obtain ⟨hp, hc, -, hr, hb, hm⟩ := e
  exact
    { err_iff_error := by rw [hr, hp]; exact h.err_iff_error
      resting_at_root := by rw [hp, hc]; exact h.resting_at_root
      cursor_linked := by rw [hp, hc, hm]; exact h.cursor_linked
      err_bit_broken := by rw [hb, hr]; exact h.err_bit_broken
      mem_wf := by rw [hm]; exact h.mem_wf }

variable {s : State}

theorem inv_resetRegisters (hm : s.mem.wf) : Inv s.resetRegisters where
  err_iff_error := by simp
  resting_at_root := by simp
  cursor_linked := by simp
  err_bit_broken := by simp
  mem_wf := hm

theorem inv_beginRun (hm : s.mem.wf) (b : Bool) : Inv (s.beginRun b) where
  err_iff_error := by simp
  resting_at_root := by simp
  cursor_linked := by simp
  err_bit_broken := by simp
  mem_wf := hm

/-- R24, R25, R124: a fault with a code other than 0, which records a bit only as BrokenTree. -/
theorem inv_takeFault {code : ErrCode} {b : Bool} (hcode : code ≠ .none) (hb : b = true → code = .brokenTree)
    (hm : s.mem.wf) : Inv (s.takeFault code b) where
  err_iff_error := iff_of_true hcode rfl
  resting_at_root := by simp [State.takeFault]
  cursor_linked := by simp [State.takeFault]
  err_bit_broken := hb
  mem_wf := hm

theorem inv_raiseBrokenTree (hm : s.mem.wf) (b : Bool) : Inv (s.raiseBrokenTree b) :=
  inv_takeFault (by decide) (fun _ => rfl) hm

theorem inv_raiseTruncatedStream (hm : s.mem.wf) : Inv s.raiseTruncatedStream :=
  inv_takeFault (by decide) (by decide) hm

/-- R101: outside RUN no item speaks of the memory's content, and a write keeps its form. -/
theorem Inv.storeNode (h : Inv s) (hp : s.phase ≠ .run) (i : NodeIndex) (v : NodeWord) : Inv (s.storeNode i v) where
  err_iff_error := h.err_iff_error
  resting_at_root := h.resting_at_root
  cursor_linked := fun hp' => absurd hp' hp
  err_bit_broken := h.err_bit_broken
  mem_wf := Memory.wf_write _ _ _ h.mem_wf

theorem Inv.setCursor_root (h : Inv s) : Inv (s.setCursor 0#9) where
  err_iff_error := h.err_iff_error
  resting_at_root := fun _ => rfl
  cursor_linked := fun _ hc => absurd rfl hc
  err_bit_broken := h.err_bit_broken
  mem_wf := h.mem_wf

/-- R81: the link that is followed is a link of the NODE word at the cursor. -/
theorem Inv.setCursor_wordLink (h : Inv s) (hp : s.phase = .run) (ht : tagBit s.node = false) (b : Bool) :
    Inv (s.setCursor (wordLink s.node b)) where
  err_iff_error := h.err_iff_error
  resting_at_root := by simp [hp]
  cursor_linked := fun _ _ => ⟨s.cursor, b, ht, rfl⟩
  err_bit_broken := h.err_bit_broken
  mem_wf := h.mem_wf

/-- R104: DONE is entered from RUN, where the report is clear, and at the root. -/
theorem Inv.setPhase_done (h : Inv s) (hp : s.phase = .run) (hc : s.cursor = 0#9) : Inv (s.setPhase .done) where
  err_iff_error := by simpa [hp] using h.err_iff_error
  resting_at_root := fun _ => hc
  cursor_linked := by simp
  err_bit_broken := h.err_bit_broken
  mem_wf := h.mem_wf

theorem sameHardware_bitConsumed (s : State) (b : Bool) : SameHardware (s.bitConsumed b) s := .refl s

theorem sameHardware_sinkTakes (s : State) (c : SymbolByte) : SameHardware (s.sinkTakes c) s := .refl s

/-- R33: each kind of cycle keeps the invariant. -/
theorem inv_cycleResult (h : Inv s) : Inv (cycleResult s) := by
  rcases cycle_cases s with
    hr | ⟨hr, hp⟩ | ⟨hr, he⟩ | ⟨hr, hp, he, hv⟩ | ⟨hr, hp, he, hv, hs⟩ | ⟨hr, hp, he, hv, hs⟩
  · rw [cycleResult_reset hr]
    exact inv_resetRegisters (by simpa [handshakes_eq] using h.mem_wf)
  · have hu : Inv (if s.inputs.twEn then s.storeNode s.inputs.twAddr s.inputs.twData else s) := by
      split_ifs
      · exact h.storeNode hp _ _
      · exact h
    rw [cycleResult_host hr hp]
    dsimp only
    split
    · exact inv_beginRun hu.mem_wf _
    · exact hu
  · rw [cycleResult_emit hr he]
    split_ifs
    · exact (h.of_sameHardware (sameHardware_sinkTakes s _)).setCursor_root
    · exact h
  · have hb := h.of_sameHardware (sameHardware_bitConsumed s s.inputs.bitData)
    rw [cycleResult_bit hr hp he hv]
    split_ifs with hbroken
    · exact inv_raiseBrokenTree hb.mem_wf _
    · simp only [not_or, Bool.not_eq_true] at hbroken
      exact hb.setCursor_wordLink hp hbroken.1 _
  · rw [cycleResult_eos hr hp he hv hs]
    split_ifs with hc hstrict
    · exact h.setPhase_done hp hc
    · exact inv_raiseTruncatedStream h.mem_wf
    · exact h.setCursor_root.setPhase_done hp rfl
  · rwa [cycleResult_stall hr hp he hv hs]

end

open Sys2Proof.Machine in
/-- Settles O38: each kind of cycle keeps the invariant, and the end of a cycle writes no hardware. -/
theorem everyStepKeepsTheInvariant : Obligations.EveryStepKeepsTheInvariant := by
  intro s t hi h
  rw [(step_next_iff s t).1 h]
  exact (inv_cycleResult hi).of_sameHardware (sameHardware_endCycle _)

open Sys2Proof.Machine in
/-- Settles O39: the registers after reset are those RESET writes, over an empty memory. -/
theorem resetStateMeetsTheInvariant : Obligations.ResetStateMeetsTheInvariant :=
  ⟨inv_resetRegisters (s := State.reset) Memory.wf_reset, rfl, fun _ => rfl⟩

open Sys2Proof.Machine in
/-- Settles O23, by the kind of cycle: only RESET, START, a bit with a missing link and EOS write the phase. -/
theorem phaseTransitionsAreTheListed : Obligations.PhaseTransitionsAreTheListed := by
  intro s t h hne
  obtain rfl := (step_next_iff s t).1 h
  simp only [State.endCycle_phase, State.endCycle_cursor, State.endCycle_err] at hne ⊢
  rcases cycle_cases s with
    hr | ⟨hr, hp⟩ | ⟨hr, he⟩ | ⟨hr, hp, he, hv⟩ | ⟨hr, hp, he, hv, hs⟩ | ⟨hr, hp, he, hv, hs⟩
  · exact .inl ⟨by simp [cycleResult_reset hr], hr⟩
  · cases hs : s.inputs.start
    · exact absurd (cycleResult_controls_of_noStart hr hp hs).1 hne
    · exact .inr (.inl ⟨cycleResult_phase_of_start hr hp hs, hp, hr, rfl⟩)
  · rw [cycleResult_emit hr he] at hne
    split_ifs at hne <;> simp at hne
  · have hc : consumesBit s = true := (consumesBit_of_noEmit hp he).trans hv
    rw [cycleResult_bit hr hp he hv] at hne ⊢
    split_ifs at hne ⊢
    · exact .inr (.inr (.inr ⟨rfl, hp, hr, .inl ⟨hc, rfl⟩⟩))
    · simp at hne
  · have hc := seesEos_of_noEmit hp he hv hs
    rw [cycleResult_eos hr hp he hv hs]
    split_ifs with hroot hstrict
    · exact .inr (.inr (.inl ⟨rfl, hp, hr, hc, hroot⟩))
    · exact .inr (.inr (.inr ⟨rfl, hp, hr, .inr ⟨hc, hstrict, rfl⟩⟩))
    · exact .inr (.inr (.inl ⟨rfl, hp, hr, hc, rfl⟩))
  · exact absurd (by rw [cycleResult_stall hr hp he hv hs]) hne

open Sys2Proof.Machine in
/-- Settles O26: a cycle without RESET and without an accepted START keeps the three registers, unless it enters
ERROR. -/
theorem controlRegistersChangeOnlyAsListed : Obligations.ControlRegistersChangeOnlyAsListed := by
  intro s t h
  obtain rfl := (step_next_iff s t).1 h
  simp only [State.endCycle_phase, State.endCycle_strict, State.endCycle_err, State.endCycle_errBit]
  cases hr : s.inputs.rst
  · by_cases hp : s.phase = .run
    · obtain ⟨hstrict, herror | ⟨herr, hbit⟩⟩ := cycleResult_controls_of_run hr hp
      · simp [hstrict, hp, herror]
      · simp [hstrict, herr, hbit]
    · cases hs : s.inputs.start
      · obtain ⟨-, hstrict, herr, hbit⟩ := cycleResult_controls_of_noStart hr hp hs
        simp [hstrict, herr, hbit]
      · simp [hp]
  · simp

open Sys2Proof.Machine in
/-- Settles O28: no cycle of a run writes the memory, and so none of the `k` does. -/
theorem memoryIsConstantDuringARun : Obligations.MemoryIsConstantDuringARun :=
  fun _ _ hk => runCycles_mem_of_run hk

open Sys2Proof.Machine in
/-- Settles O34: the hardware is held, and the outputs are functions of it. -/
theorem pendingSymbolIsHeld : Obligations.PendingSymbolIsHeld := by
  intro k s hv hk
  obtain ⟨hw, ht⟩ := runCycles_held hv hk
  exact ⟨hw.out_eq, hw, ht⟩

/-! ### The output ports in place values -/

/-- R60: bit 18 is the top bit of a node word. -/
theorem tagBit_iff_toNat (w : NodeWord) : tagBit w = true ↔ w.toNat / 2 ^ 18 = 1 := by
  have hw : w.toNat < 2 ^ 19 := w.isLt
  rw [tagBit, BitVec.getLsbD, Nat.testBit_eq_decide_div_mod_eq, decide_eq_true_iff]
  omega

/-- R60: the symbol of a LEAF word is its low byte. -/
theorem symField_toNat (w : NodeWord) : (symField w).toNat = w.toNat % 2 ^ 8 := by
  simp [symField]

open Sys2Proof.Machine in
/-- Settles O35: `sym_valid` is `emit`, `sym_data` the low byte under it, and the rest read the registers. -/
theorem outputPortsFollowTheState : Obligations.OutputPortsFollowTheState := by
  intro s
  refine ⟨?_, bitReady_iff s, ?_, beq_iff_eq, beq_iff_eq, beq_iff_eq, rfl, rfl, ?_⟩
  · rw [← tagBit_iff_toNat, and_comm (a := tagBit _ = true)]
    exact emit_iff s
  · change (symData s).toNat = if emit s then s.node.toNat % 2 ^ 8 else 0
    rw [symData, apply_ite BitVec.toNat, symField_toNat]
    rfl
  · change s.err.code = _
    cases s.err <;> rfl

open Sys2Proof.Machine in
/-- Settles O33, by the phase, and in RUN by whether an emission is pending. -/
theorem statusOutputsDecodeThePhase : Obligations.StatusOutputsDecodeThePhase := by
  intro s
  refine ⟨?_, ?_, ?_, ?_, ?_⟩
  · cases hp : s.phase <;> simp [out, hp]
  · by_cases hp : s.phase = .run
    · cases he : emit s <;> simp [out, bitReady, symValid, hp, he]
    · simp [out, bitReady, symValid, hp, emit_false_of_phase]
  · cases he : emit s <;> simp [out, bitReady, symValid, he]
  · intro hv
    have he : emit s = false := hv
    simp [out, symData, he]
  · cases he : s.err <;> simp [out, ErrCode.code, he]

end Sys2Proof

/-! ### What an instruction and a cycle leave unchanged (R43, R101) -/

namespace Sys2Proof.Machine

variable {s t : State}

/-- R81, R82, R105, R107: the next states of a NODE. -/
theorem execNode_next_cases {l r : NodeIndex} (h : execNode l r s = .next t) :
    t = s ∨ t = (s.bitConsumed s.inputs.bitData).raiseBrokenTree s.inputs.bitData ∨
      t = (s.bitConsumed s.inputs.bitData).setCursor (selectedLink l r s.inputs.bitData) := by
  by_cases hon : s.phase = .run ∧ s.inputs.bitValid = true
  · rw [execNode_on l r hon.1 hon.2] at h
    split_ifs at h <;> cases h <;> simp
  · rw [execNode_off l r (by simpa [imp_iff_not_or] using hon)] at h
    cases h
    exact .inl rfl

/-- R83, R84, R107: the next states of a LEAF. -/
theorem execLeaf_next_cases {c : SymbolByte} (h : execLeaf c s = .next t) :
    t = s ∨ t = (s.sinkTakes c).setCursor 0#9 ∨
      t = (s.bitConsumed s.inputs.bitData).raiseBrokenTree s.inputs.bitData ∨ t = s.setPhase .done := by
  by_cases hp : s.phase = .run
  · by_cases hc : s.cursor = 0#9
    · rw [execLeaf_root c hp hc] at h
      split_ifs at h <;> cases h <;> simp
    · rw [execLeaf_emit c hp hc] at h
      split_ifs at h <;> cases h <;> simp
  · rw [execLeaf_off c hp] at h
    cases h
    exact .inl rfl

/-- R104, R107: the next states of EOS. -/
theorem execEos_next_cases (h : execEos s = .next t) :
    t = s ∨ t = s.setPhase .done ∨ t = s.raiseTruncatedStream ∨ t = (s.setPhase .done).setCursor 0#9 := by
  by_cases hon : s.phase = .run ∧ emit s = false
  · rw [execEos_on hon.1 hon.2] at h
    split_ifs at h <;> cases h <;> simp
  · rw [execEos_off (by simpa [imp_iff_not_or] using hon)] at h
    cases h
    exact .inl rfl

/-- R101, R106: the next states of WRNODE. -/
theorem execWrnode_next_cases {a : NodeIndex} {v : NodeWord} (h : execWrnode a v s = .next t) :
    t = s ∨ t = { s with mem := s.mem.write a v } := by
  rw [execWrnode_eq] at h
  split_ifs at h <;> cases h
  · exact .inl rfl
  · exact .inr rfl

/-- R102, R106: the next states of START. -/
theorem execStart_next_cases {b : Bool} (h : execStart b s = .next t) : t = s ∨ t = s.beginRun b := by
  rw [execStart_eq] at h
  split_ifs at h <;> cases h <;> simp

/-- R140: RESET keeps the memory. -/
theorem cycleResult_mem_of_reset (hr : s.inputs.rst = true) : (cycleResult s).mem = s.mem := by
  simp [cycleResult_reset hr, handshakes_eq]

/-- R101, R103: outside RUN a cycle writes the memory exactly where the node write port says. -/
theorem cycleResult_mem_of_host (hr : s.inputs.rst = false) (hp : s.phase ≠ .run) :
    (cycleResult s).mem = if s.inputs.twEn then s.mem.write s.inputs.twAddr s.inputs.twData else s.mem := by
  rw [cycleResult_host hr hp]
  cases s.inputs.twEn <;> cases s.inputs.start <;> simp

/-- R43: a write that changes what an index reads as, or whether it has been written, is a write of that index. -/
theorem Memory.eq_of_write_changes {m : Memory} {i a : NodeIndex} {v : NodeWord}
    (h : (m.write i v).read a ≠ m.read a ∨ (m.write i v).written a ≠ m.written a) : i = a := by
  by_contra hne
  rcases h with h | h
  · exact h (Memory.read_write_ne m v (Ne.symm hne))
  · exact h (Memory.written_write_ne m v (Ne.symm hne))

end Sys2Proof.Machine

namespace Sys2Proof

open Sys2Proof.Machine in
/-- Settles O21, by the instruction and the next states it can have. -/
theorem frameOfEveryInstruction : Obligations.FrameOfEveryInstruction := by
  intro i s t h
  cases i with
  | node l r => rcases execNode_next_cases h with rfl | rfl | rfl <;> simp
  | leaf v c => rcases execLeaf_next_cases h with rfl | rfl | rfl | rfl <;> simp
  | reset =>
    obtain rfl : s.handshakes.resetRegisters = t := by cases h; rfl
    simp [handshakes_eq]
  | wrnode a v => rcases execWrnode_next_cases h with rfl | rfl <;> simp
  | start b => rcases execStart_next_cases h with rfl | rfl <;> simp
  | eos => rcases execEos_next_cases h with rfl | rfl | rfl | rfl <;> simp
  | stall =>
    obtain rfl : s = t := by cases h; rfl
    simp

open Sys2Proof.Machine in
/-- Settles O27: RESET and the cycles of a run keep the memory, and outside RUN the node write port changes one index
of it. -/
theorem memoryChangesOnlyByWrnode : Obligations.MemoryChangesOnlyByWrnode := by
  intro s t a h hne
  obtain rfl := (step_next_iff s t).1 h
  rw [State.endCycle_mem] at hne ⊢
  cases hr : s.inputs.rst
  · by_cases hp : s.phase = .run
    · simp [cycleResult_mem_of_run hp] at hne
    · rw [cycleResult_mem_of_host hr hp] at hne ⊢
      cases ht : s.inputs.twEn
      · simp [ht] at hne
      · simp only [ht, if_true] at hne ⊢
        obtain rfl := Memory.eq_of_write_changes hne
        simp [hp]
  · simp [cycleResult_mem_of_reset hr] at hne

end Sys2Proof

/-! ### Node words: place values, the opcode map, encodings (R60, R61, R64, R65) -/

namespace Sys2Proof

variable (w : NodeWord) (l r : NodeIndex) (v : Reserved) (c : SymbolByte)

theorem leftField_toNat : (leftField w).toNat = w.toNat / 2 ^ 9 % 2 ^ 9 := by
  simp [leftField, Nat.shiftRight_eq_div_pow]

theorem rightField_toNat : (rightField w).toNat = w.toNat % 2 ^ 9 := by
  simp [rightField]

theorem rsvField_toNat : (rsvField w).toNat = w.toNat / 2 ^ 8 % 2 ^ 10 := by
  simp [rsvField, Nat.shiftRight_eq_div_pow]

/-- R60: the word is a NODE below `2 ^ 18`. -/
theorem tagBit_eq_false_iff_toNat : tagBit w = false ↔ w.toNat < 2 ^ 18 := by
  have hw : w.toNat < 2 ^ 19 := w.isLt
  rw [← Bool.not_eq_true, tagBit_iff_toNat]
  omega

/-- Format N of R60 in place values: the two links do not overlap. -/
theorem nodeWordOf_toNat : (nodeWordOf l r).toNat = l.toNat * 2 ^ 9 + r.toNat := by
  have hl : l.toNat <<< 9 < 2 ^ 19 := by rw [Nat.shiftLeft_eq]; omega
  rw [nodeWordOf, BitVec.toNat_or, BitVec.toNat_shiftLeft, BitVec.toNat_setWidth_of_le (by decide),
    BitVec.toNat_setWidth_of_le (by decide), Nat.mod_eq_of_lt hl, ← Nat.shiftLeft_add_eq_or_of_lt r.isLt,
    Nat.shiftLeft_eq]

/-- Format L of R60 in place values: tag, reserved bits and symbol do not overlap. -/
theorem leafWordOf_toNat : (leafWordOf v c).toNat = 2 ^ 18 + v.toNat * 2 ^ 8 + c.toNat := by
  have hv : v.toNat <<< 8 < 2 ^ 18 := by rw [Nat.shiftLeft_eq]; omega
  have htag : 2 ^ 18 ||| v.toNat <<< 8 = (2 ^ 10 + v.toNat) <<< 8 := by
    rw [← Nat.mul_one (2 ^ 18), ← Nat.two_pow_add_eq_or_of_lt hv, Nat.shiftLeft_eq, Nat.shiftLeft_eq]
    omega
  rw [leafWordOf, BitVec.toNat_or, BitVec.toNat_or, BitVec.toNat_twoPow_of_lt (by decide), BitVec.toNat_shiftLeft,
    BitVec.toNat_setWidth_of_le (by decide), BitVec.toNat_setWidth_of_le (by decide),
    Nat.mod_eq_of_lt (hv.trans (by decide)), htag, ← Nat.shiftLeft_add_eq_or_of_lt c.isLt, Nat.shiftLeft_eq]
  omega

theorem and_opcodeMask : w &&& opcodeMask = if tagBit w then 0x40000#19 else 0x00000#19 :=
  BitVec.and_twoPow w 18

/-! ### Encoding and decoding are inverse -/

@[simp] theorem decode_nodeWordOf : decode (nodeWordOf l r) = .node l r := by
  have hl := l.isLt
  have hr := r.isLt
  refine (decode_eq_node_iff _ _ _).2 ⟨?_, BitVec.eq_of_toNat_eq ?_, BitVec.eq_of_toNat_eq ?_⟩
  · rw [tagBit_eq_false_iff_toNat, nodeWordOf_toNat]; omega
  · rw [leftField_toNat, nodeWordOf_toNat]; omega
  · rw [rightField_toNat, nodeWordOf_toNat]; omega

@[simp] theorem decode_leafWordOf : decode (leafWordOf v c) = .leaf v c := by
  have hv := v.isLt
  have hc := c.isLt
  refine (decode_eq_leaf_iff _ _ _).2 ⟨?_, BitVec.eq_of_toNat_eq ?_, BitVec.eq_of_toNat_eq ?_⟩
  · rw [tagBit_iff_toNat, leafWordOf_toNat]; omega
  · rw [rsvField_toNat, leafWordOf_toNat]; omega
  · rw [symField_toNat, leafWordOf_toNat]; omega

/-- R60: a word with `tag` = 0 is put together again from its two links. -/
theorem nodeWordOf_fields (ht : tagBit w = false) : nodeWordOf (leftField w) (rightField w) = w := by
  rw [tagBit_eq_false_iff_toNat] at ht
  apply BitVec.eq_of_toNat_eq
  rw [nodeWordOf_toNat, leftField_toNat, rightField_toNat]
  omega

/-- R60, R64: a word with `tag` = 1 is put together again from its symbol and its reserved bits. -/
theorem leafWordOf_fields (ht : tagBit w = true) : leafWordOf (rsvField w) (symField w) = w := by
  rw [tagBit_iff_toNat] at ht
  apply BitVec.eq_of_toNat_eq
  rw [leafWordOf_toNat, rsvField_toNat, symField_toNat]
  omega

theorem decode_of_node (ht : tagBit w = false) : decode w = .node (leftField w) (rightField w) :=
  (decode_eq_node_iff w _ _).2 ⟨ht, rfl, rfl⟩

theorem decode_of_leaf (ht : tagBit w = true) : decode w = .leaf (rsvField w) (symField w) :=
  (decode_eq_leaf_iff w _ _).2 ⟨ht, rfl, rfl⟩

theorem wellFormed_decode : (decode w).wellFormed = true := by
  cases ht : tagBit w
  · rw [decode_of_node w ht]; rfl
  · rw [decode_of_leaf w ht]; rfl

theorem encode_decode : encode (decode w) = some w := by
  cases ht : tagBit w
  · rw [decode_of_node w ht, encode, nodeWordOf_fields w ht]
  · rw [decode_of_leaf w ht, encode, leafWordOf_fields w ht]

/-- R65: the masked bits of a word are the `match` of the row it decodes to. -/
theorem opcodeMatch_decode : opcodeMatch (decode w) = some (w &&& opcodeMask) := by
  rw [and_opcodeMask]
  cases ht : tagBit w
  · rw [decode_of_node w ht]; rfl
  · rw [decode_of_leaf w ht]; rfl

variable {i : Instr}

/-- R60, R65: decoding the word of an instruction gives it back. -/
theorem decode_of_encode (h : encode i = some w) : decode w = i := by
  cases i with
  | node l r => cases h; exact decode_nodeWordOf l r
  | leaf v c => cases h; exact decode_leafWordOf v c
  | reset | wrnode | start | eos | stall => cases h

/-- R65: an instruction has a word exactly if it is a node word. -/
theorem isSome_encode : (encode i).isSome = i.wellFormed := by
  cases i <;> rfl

/-- Settles O1: the word of a well-formed instruction decodes to it, so the row of the word is its row. -/
theorem decodeInvertsEncode : Obligations.DecodeInvertsEncode := by
  intro i hi
  obtain ⟨w, hw⟩ := Option.isSome_iff_exists.1 (isSome_encode.trans hi)
  have hd : decode w = i := decode_of_encode w hw
  exact ⟨w, hw, hd ▸ (opcodeMatch_decode w).symm, hd⟩

/-- Settles O2, by the tag of the word. -/
theorem encodeInvertsDecode : Obligations.EncodeInvertsDecode := fun w =>
  ⟨wellFormed_decode w, encode_decode w⟩

/-- Settles O3: the tag and the fields of the word `n` are read off in place values. -/
theorem decodeReadsTheFields : Obligations.DecodeReadsTheFields := by
  intro n hn
  have hw : (BitVec.ofNat 19 n).toNat = n := Nat.mod_eq_of_lt hn
  split_ifs with h
  · refine (decode_eq_node_iff _ _ _).2 ⟨?_, BitVec.eq_of_toNat_eq ?_, BitVec.eq_of_toNat_eq ?_⟩
    · rwa [tagBit_eq_false_iff_toNat, hw]
    · rw [leftField_toNat, hw, BitVec.toNat_ofNat]
    · rw [rightField_toNat, hw, BitVec.toNat_ofNat, Nat.mod_mod]
  · refine (decode_eq_leaf_iff _ _ _).2 ⟨?_, BitVec.eq_of_toNat_eq ?_, BitVec.eq_of_toNat_eq ?_⟩
    · rw [tagBit_iff_toNat, hw]; omega
    · rw [rsvField_toNat, hw, BitVec.toNat_ofNat, Nat.mod_mod]
    · rw [symField_toNat, hw, BitVec.toNat_ofNat, Nat.mod_mod]

theorem exists_decode_eq_node_iff : (∃ l r, decode w = .node l r) ↔ tagBit w = false := by
  simp [decode_eq_node_iff]

theorem exists_decode_eq_leaf_iff : (∃ v c, decode w = .leaf v c) ↔ tagBit w = true := by
  simp [decode_eq_leaf_iff]

/-- R65: a NODE is encoded as `(l << 9) + r`. -/
theorem nodeWordOf_eq_add : nodeWordOf l r = (l.setWidth 19 <<< 9) + r.setWidth 19 := by
  have hl := l.isLt
  have hr := r.isLt
  apply BitVec.eq_of_toNat_eq
  rw [nodeWordOf_toNat, BitVec.toNat_add, BitVec.toNat_shiftLeft, BitVec.toNat_setWidth, BitVec.toNat_setWidth,
    Nat.shiftLeft_eq]
  omega

/-- R65: a canonical LEAF is encoded as `0x40000 + s`. -/
theorem leafWordOf_canonical_eq_add : leafWordOf 0#10 c = 0x40000#19 + c.setWidth 19 := by
  have hc := c.isLt
  apply BitVec.eq_of_toNat_eq
  rw [leafWordOf_toNat, BitVec.toNat_add, BitVec.toNat_setWidth, BitVec.toNat_ofNat, BitVec.toNat_ofNat]
  omega

/-- R65: only the events have no word. -/
theorem encode_eq_none_iff : encode i = none ↔ (∀ l r, i ≠ .node l r) ∧ ∀ v c, i ≠ .leaf v c := by
  cases i <;> simp [encode]

/-- Settles O4: the masked bits are the tag, and the encodings are sums of disjoint fields. -/
theorem opcodeMapDecidesTheRow : Obligations.OpcodeMapDecidesTheRow := by
  refine ⟨fun w => ?_, fun l r => ?_, fun c => ?_, fun i => encode_eq_none_iff⟩
  · rw [exists_decode_eq_node_iff, exists_decode_eq_leaf_iff, ← opcodeMask, and_opcodeMask]
    cases tagBit w <;> simp [opcodeMask]
  · rw [encode, nodeWordOf_eq_add]
  · rw [encode, leafWordOf_canonical_eq_add]

/-- Settles O5: the four words are closed. -/
theorem sampleWordsDecode : Obligations.SampleWordsDecode :=
  ⟨by decide, by decide, by decide, by decide⟩

end Sys2Proof

/-! ### `decode(M, B, strict)` under a renumbering of the nodes (R71) -/

namespace Sys2Proof

/-- The instruction with its links renamed. -/
def Instr.renameLinks (f : NodeIndex → NodeIndex) : Instr → Instr
  | .node l r => .node (f l) (f r)
  | other => other

namespace Machine

/-- The outcome with the node of its fault renamed. -/
def StreamOutcome.rename (f : NodeIndex → NodeIndex) : StreamOutcome → StreamOutcome
  | .done k => .done k
  | .brokenTree node b k => .brokenTree (f node) b k
  | .truncatedStream node k => .truncatedStream (f node) k

variable {f : NodeIndex → NodeIndex} {w w' : NodeWord}

/-- A NODE word renamed is the NODE of the renamed links. -/
theorem decode_renamed_node (h : decode w' = (decode w).renameLinks f) (ht : tagBit w = false) :
    decode w' = .node (f (leftField w)) (f (rightField w)) := by
  rw [h, decode_of_node w ht]; rfl

/-- A LEAF word renamed keeps its fields. -/
theorem decode_renamed_leaf (h : decode w' = (decode w).renameLinks f) (ht : tagBit w = true) :
    decode w' = .leaf (rsvField w) (symField w) := by
  rw [h, decode_of_leaf w ht]; rfl

theorem tagBit_renamed (h : decode w' = (decode w).renameLinks f) : tagBit w' = tagBit w := by
  cases ht : tagBit w
  · exact ((decode_eq_node_iff ..).1 (decode_renamed_node h ht)).1
  · exact ((decode_eq_leaf_iff ..).1 (decode_renamed_leaf h ht)).1

theorem wordLink_renamed (h : decode w' = (decode w).renameLinks f) (ht : tagBit w = false) (b : Bool) :
    wordLink w' b = f (wordLink w b) := by
  rw [wordLink_of_decode (decode_renamed_node h ht)]
  cases b <;> rfl

theorem symField_renamed (h : decode w' = (decode w).renameLinks f) (ht : tagBit w = true) :
    symField w' = symField w :=
  ((decode_eq_leaf_iff ..).1 (decode_renamed_leaf h ht)).2.2

variable {M M' : Image}

/-- The loop of R88 keeps step on the two images, with the cursor renamed. -/
theorem decodeFrom_rename (h0 : ∀ i, f i = 0#9 ↔ i = 0#9) (hM : ∀ i, decode (M' (f i)) = (decode (M i)).renameLinks f)
    (strict : Bool) (bits : List Bool) (cur : NodeIndex) (acc : List SymbolByte) (k : Nat) :
    decodeFrom M' strict bits (f cur) acc k =
      ((decodeFrom M strict bits cur acc k).1, (decodeFrom M strict bits cur acc k).2.rename f) := by
  have htag (i) : tagBit (M' (f i)) = tagBit (M i) := tagBit_renamed (hM i)
  have hlink {i} (ht : tagBit (M i) = false) (b) : wordLink (M' (f i)) b = f (wordLink (M i) b) :=
    wordLink_renamed (hM i) ht b
  induction bits generalizing cur acc k with
  | nil =>
    simp only [decodeFrom_nil, ne_eq, h0]
    split_ifs <;> rfl
  | cons b bs ih =>
    rcases loop_cases M cur b with hb | ⟨ht, hl, hleaf⟩ | ⟨ht, hl, hnode⟩
    · have hb' : tagBit (M' (f cur)) = true ∨ wordLink (M' (f cur)) b = 0#9 := by
        cases ht : tagBit (M cur)
        · exact .inr (by rw [hlink ht, h0]; simpa [ht] using hb)
        · exact .inl (htag cur ▸ ht)
      rw [decodeFrom_cons_broken hb, decodeFrom_cons_broken hb', StreamOutcome.rename]
    · rw [decodeFrom_cons_leaf ht hl hleaf, ← ih, (h0 0#9).2 rfl,
        decodeFrom_cons_leaf (by rwa [htag]) (by rwa [hlink ht, ne_eq, h0]) (by rwa [hlink ht, htag]),
        hlink ht, symField_renamed (hM _) hleaf]
    · rw [decodeFrom_cons_node ht hl hnode, ← ih, ← hlink ht,
        decodeFrom_cons_node (by rwa [htag]) (by rwa [hlink ht, ne_eq, h0]) (by rwa [hlink ht, htag])]

end Machine

open Sys2Proof.Machine in
/-- Settles O48: both loops start at the root, which the renaming keeps. -/
theorem decodeIgnoresNodeNumbering : Obligations.DecodeIgnoresNodeNumbering := by
  intro M M' f h0 hM bits strict
  have hroot : f 0#9 = 0#9 := (h0 0#9).2 rfl
  have h := decodeFrom_rename (M := M) (M' := M') h0 hM strict bits 0#9 [] 0
  rw [hroot] at h
  exact h

end Sys2Proof

/-! ### What a cycle runs, and what the node words do (R80 to R84, R100, R103) -/

namespace Sys2Proof.Machine

variable {s : State}

/-- R80, R126: a cycle that runs one instruction is the `exec` of it. -/
theorem step_of_cycleInstrs {i : Instr} (h : cycleInstrs s = [i]) : step s = closeCycle (exec i s) := by
  rw [step, cycleStep, h, execAll_single]

theorem cycleInstrs_reset (hr : s.inputs.rst = true) : cycleInstrs s = [.reset] := if_pos hr

theorem cycleInstrs_run (hr : s.inputs.rst = false) (hp : s.phase = .run) :
    cycleInstrs s = runEvents s s.inputs := by
  simp [cycleInstrs, hr, hp]

theorem cycleInstrs_host (hr : s.inputs.rst = false) (hp : s.phase ≠ .run) :
    cycleInstrs s = hostEvents s.inputs := by
  simp [cycleInstrs, hr, hp]

theorem runEvents_fetch {p : Inputs} (h : emit s = true ∨ p.bitValid = true) : runEvents s p = [fetch s] :=
  if_pos (by simpa using h)

theorem runEvents_noBit {p : Inputs} (he : emit s = false) (hv : p.bitValid = false) :
    runEvents s p = [if p.bitEos then .eos else .stall] := by
  cases hs : p.bitEos <;> simp [runEvents, he, hv, hs]

theorem emit_of_leaf (hp : s.phase = .run) (hc : s.cursor ≠ 0#9) {v : Reserved} {c : SymbolByte}
    (h : decode s.node = .leaf v c) : emit s = true :=
  (emit_iff s).2 ⟨hp, hc, ((decode_eq_leaf_iff ..).1 h).1⟩

/-- R29: with an emission pending, its symbol is on offer and no bit is taken. -/
theorem out_of_emit (he : emit s = true) :
    (out s).symValid = true ∧ (out s).symData = symField s.node ∧ (out s).bitReady = false := by
  simp [out, symValid, symData, bitReady, he]

/-- R29: in RUN with no emission pending, the decoder is ready for a bit. -/
theorem out_of_noEmit (hp : s.phase = .run) (he : emit s = false) :
    (out s).bitReady = true ∧ (out s).symValid = false :=
  ⟨(bitReady_iff s).2 ⟨hp, he⟩, he⟩

/-- R81, R82: at a NODE the decoder is ready for a bit. -/
theorem out_of_node (hp : s.phase = .run) {l r : NodeIndex} (h : decode s.node = .node l r) :
    (out s).bitReady = true ∧ (out s).symValid = false :=
  out_of_noEmit hp (emit_false_of_node ((decode_eq_node_iff ..).1 h).1)

end Sys2Proof.Machine

namespace Sys2Proof

open Sys2Proof.Machine in
/-- Settles O6: the fetched word is the one instruction of the cycle, and every word decodes to a node word. -/
theorem stepRunsTheFetchedInstruction : Obligations.StepRunsTheFetchedInstruction := by
  rintro s _ hr hp h rfl
  exact ⟨wellFormed_decode _, step_of_cycleInstrs ((cycleInstrs_run hr hp).trans (runEvents_fetch h))⟩

open Sys2Proof.Machine in
/-- Settles O7: each kind of cycle without a fetched word runs one event, but for WRNODE with START, which runs one
after the other. -/
theorem stepRunsThePortEvent : Obligations.StepRunsThePortEvent := by
  intro s
  refine ⟨fun hr => step_of_cycleInstrs (cycleInstrs_reset hr),
    fun hr hp he hv => step_of_cycleInstrs ((cycleInstrs_run hr hp).trans (runEvents_noBit he hv)), fun hr hp => ?_⟩
  have hi := cycleInstrs_host hr hp
  refine ⟨fun ht hs => step_of_cycleInstrs ?_, fun ht hs => step_of_cycleInstrs ?_, fun ht hs => ?_,
    fun ht hs => step_of_cycleInstrs ?_⟩
  · rw [hi, hostEvents, ht, hs]
  · rw [hi, hostEvents, ht, hs]
  · refine ⟨_, execWrnode_eq _ _ s, ?_⟩
    rw [step, cycleStep, hi, hostEvents, ht, hs, execAll, exec, execWrnode_eq]
    exact congrArg closeCycle (execAll_single ..)
  · rw [hi, hostEvents, ht, hs]

open Sys2Proof.Machine in
/-- Settles O9: the selected link is present, so NODE writes it to the cursor. -/
theorem nodeFollowsTheSelectedLink : Obligations.NodeFollowsTheSelectedLink := by
  intro l r s hp hv hl
  exact ⟨(execNode_on l r hp hv).trans (congrArg _ (if_neg hl)), out_of_node hp⟩

open Sys2Proof.Machine in
/-- Settles O10: the selected link is missing, so NODE raises BrokenTree. -/
theorem nodeWithMissingLinkRaisesBrokenTree : Obligations.NodeWithMissingLinkRaisesBrokenTree := by
  intro l r s hp hv hl
  exact ⟨⟨_, (execNode_on l r hp hv).trans (congrArg _ (if_pos hl)), rfl, rfl, rfl, rfl, rfl⟩, out_of_node hp⟩

open Sys2Proof.Machine in
/-- Settles O11, by whether the sink is ready. -/
theorem leafHandsOverItsSymbol : Obligations.LeafHandsOverItsSymbol := by
  intro v c s hp hc
  refine ⟨fun hy => ?_, fun hy => ?_, fun hw => ?_⟩
  · exact ⟨_, (execLeaf_emit c hp hc).trans (congrArg _ (if_pos hy)), rfl, emit_false_of_root rfl⟩
  · rw [exec, execLeaf_emit c hp hc, hy]
    rfl
  · obtain ⟨-, -, rfl⟩ := (decode_eq_leaf_iff ..).1 hw
    exact out_of_emit (emit_of_leaf hp hc hw)

open Sys2Proof.Machine in
/-- Settles O12, by what the stream offers. -/
theorem rootLeafIsNeverEmitted : Obligations.RootLeafIsNeverEmitted := by
  intro v c s hp hc
  have hx : exec (.leaf v c) s = _ := execLeaf_root c hp hc
  refine ⟨fun hv => ?_, fun hv hs => ?_, fun hv hs => ?_, fun _ => ?_⟩
  · exact ⟨_, hx.trans (congrArg _ (if_pos hv)), rfl, rfl⟩
  · rw [hx, hv, hs]
    rfl
  · rw [hx, hv, hs]
    rfl
  · exact (out_of_noEmit hp (emit_false_of_root hc)).symm

end Sys2Proof

/-! ### The writes to the cursor (R85) -/

namespace Sys2Proof.Machine

variable {s : State}

theorem cycleResult_cursor_reset (hr : s.inputs.rst = true) : (cycleResult s).cursor = 0#9 := by
  rw [cycleResult_reset hr]
  rfl

theorem cycleResult_cursor_host (hr : s.inputs.rst = false) (hp : s.phase ≠ .run) :
    (cycleResult s).cursor = if s.inputs.start then 0#9 else s.cursor := by
  rw [cycleResult_host hr hp]
  cases s.inputs.twEn <;> cases s.inputs.start <;> simp

theorem cycleResult_cursor_emit (hr : s.inputs.rst = false) (he : emit s = true) :
    (cycleResult s).cursor = if s.inputs.symReady then 0#9 else s.cursor := by
  rw [cycleResult_emit hr he]
  split_ifs <;> rfl

theorem cycleResult_cursor_bit (hr : s.inputs.rst = false) (hp : s.phase = .run) (he : emit s = false)
    (hv : s.inputs.bitValid = true) :
    (cycleResult s).cursor = if tagBit s.node = true ∨ wordLink s.node s.inputs.bitData = 0#9 then s.cursor
      else wordLink s.node s.inputs.bitData := by
  rw [cycleResult_bit hr hp he hv]
  split_ifs <;> rfl

/-- R104: at the root both ways to end a run leave the cursor at 0. -/
theorem cycleResult_cursor_eos (hr : s.inputs.rst = false) (hp : s.phase = .run) (he : emit s = false)
    (hv : s.inputs.bitValid = false) (hs : s.inputs.bitEos = true) :
    (cycleResult s).cursor = if s.strict then s.cursor else 0#9 := by
  rw [cycleResult_eos hr hp he hv hs]
  by_cases hc : s.cursor = 0#9
  · simp [hc]
  · cases s.strict <;> simp [hc]

theorem cycleResult_cursor_of_start (hr : s.inputs.rst = false) (hp : s.phase ≠ .run) (hs : s.inputs.start = true) :
    (cycleResult s).cursor = 0#9 := by
  rw [cycleResult_cursor_host hr hp, if_pos hs]

theorem cycleResult_cursor_of_link (hr : s.inputs.rst = false) (hp : s.phase = .run) (ht : tagBit s.node = false)
    (hv : s.inputs.bitValid = true) (hl : wordLink s.node s.inputs.bitData ≠ 0#9) :
    (cycleResult s).cursor = wordLink s.node s.inputs.bitData := by
  rw [cycleResult_cursor_bit hr hp (emit_false_of_node ht) hv, if_neg (by simp [ht, hl])]

theorem cycleResult_cursor_of_handOver (hr : s.inputs.rst = false) (he : emit s = true)
    (hy : s.inputs.symReady = true) : (cycleResult s).cursor = 0#9 := by
  rw [cycleResult_cursor_emit hr he, if_pos hy]

theorem cycleResult_cursor_of_eos_not_strict (hr : s.inputs.rst = false) (hp : s.phase = .run) (he : emit s = false)
    (hv : s.inputs.bitValid = false) (hs : s.inputs.bitEos = true) (hstrict : s.strict = false) :
    (cycleResult s).cursor = 0#9 := by
  simp [cycleResult_cursor_eos hr hp he hv hs, hstrict]

/-- R104: an end of the stream that is not strict ends the run DONE, at the root and off it. -/
theorem cycleResult_phase_of_eos_not_strict (hr : s.inputs.rst = false) (hp : s.phase = .run) (he : emit s = false)
    (hv : s.inputs.bitValid = false) (hs : s.inputs.bitEos = true) (hstrict : s.strict = false) :
    (cycleResult s).phase = .done := by
  by_cases hc : s.cursor = 0#9 <;> simp [cycleResult_eos hr hp he hv hs, hstrict, hc]

/-- R85: where a cycle changes the cursor, one of the five writes has acted. -/
theorem cycleResult_cursor_changed (hne : (cycleResult s).cursor ≠ s.cursor) :
    s.inputs.rst = true ∨
    (s.inputs.rst = false ∧ s.phase ≠ .run ∧ s.inputs.start = true) ∨
    (s.inputs.rst = false ∧ s.phase = .run ∧ tagBit s.node = false ∧ s.inputs.bitValid = true ∧
      wordLink s.node s.inputs.bitData ≠ 0#9) ∨
    (s.inputs.rst = false ∧ emit s = true ∧ s.inputs.symReady = true) ∨
    (s.inputs.rst = false ∧ s.phase = .run ∧ emit s = false ∧ s.inputs.bitValid = false ∧ s.inputs.bitEos = true ∧
      s.strict = false) := by
  rcases cycle_cases s with
    hr | ⟨hr, hp⟩ | ⟨hr, he⟩ | ⟨hr, hp, he, hv⟩ | ⟨hr, hp, he, hv, hs⟩ | ⟨hr, hp, he, hv, hs⟩
  · exact .inl hr
  · rw [cycleResult_cursor_host hr hp, ne_eq, ite_eq_right_iff, Classical.not_imp] at hne
    exact .inr (.inl ⟨hr, hp, hne.1⟩)
  · rw [cycleResult_cursor_emit hr he, ne_eq, ite_eq_right_iff, Classical.not_imp] at hne
    exact .inr (.inr (.inr (.inl ⟨hr, he, hne.1⟩)))
  · rw [cycleResult_cursor_bit hr hp he hv, ne_eq, ite_eq_left_iff, Classical.not_imp, not_or,
      Bool.not_eq_true] at hne
    exact .inr (.inr (.inl ⟨hr, hp, hne.1.1, hv, hne.1.2⟩))
  · rw [cycleResult_cursor_eos hr hp he hv hs, ne_eq, ite_eq_left_iff, Classical.not_imp, Bool.not_eq_true] at hne
    exact .inr (.inr (.inr (.inr ⟨hr, hp, he, hv, hs, hne.1⟩)))
  · rw [cycleResult_stall hr hp he hv hs] at hne
    exact absurd rfl hne

end Sys2Proof.Machine

namespace Sys2Proof

open Sys2Proof.Machine in
/-- Settles O22: each clause is the cursor of its kind of cycle, and a changed cursor has one of the five causes. -/
theorem cursorWritesAreTheListed : Obligations.CursorWritesAreTheListed := by
  intro s t h
  obtain rfl := (step_next_iff s t).1 h
  simp only [State.endCycle_cursor, State.endCycle_taken, State.endCycle_phase]
  refine ⟨cycleResult_cursor_reset, cycleResult_cursor_of_start, fun l r hr hp hw hv hl => ?_,
    fun v c hr hp hw hc => cycleResult_cursor_of_handOver hr (emit_of_leaf hp hc hw),
    cycleResult_cursor_of_eos_not_strict, fun hne => ?_⟩
  · have hlink := wordLink_of_decode hw s.inputs.bitData
    have ht := ((decode_eq_node_iff ..).1 hw).1
    exact (cycleResult_cursor_of_link hr hp ht hv (hlink ▸ hl)).trans hlink
  · rcases cycleResult_cursor_changed hne with
      hr | ⟨hr, hp, hs⟩ | ⟨hr, hp, ht, hv, hl⟩ | ⟨hr, he, hy⟩ | ⟨hr, hp, he, hv, hs, hstrict⟩
    · exact .inl ⟨hr, cycleResult_cursor_reset hr⟩
    · exact .inr (.inl ⟨hr, hp, hs, cycleResult_cursor_of_start hr hp hs⟩)
    · have hcur := cycleResult_cursor_of_link hr hp ht hv hl
      exact .inr (.inr (.inl ⟨_, _, hr, hp, decode_of_node _ ht, hv, hcur, hcur ▸ hl⟩))
    · obtain ⟨hp, hc, ht⟩ := (emit_iff s).1 he
      have htaken : (cycleResult s).taken = s.taken ++ [symField s.node] := by simp [cycleResult_emit hr he, hy]
      exact .inr (.inr (.inr (.inl
        ⟨_, _, hr, hp, decode_of_leaf _ ht, hc, hy, cycleResult_cursor_of_handOver hr he hy, htaken⟩)))
    · exact .inr (.inr (.inr (.inr ⟨hr, hp, he, hv, hs, hstrict,
        cycleResult_cursor_of_eos_not_strict hr hp he hv hs hstrict,
        cycleResult_phase_of_eos_not_strict hr hp he hv hs hstrict⟩)))

end Sys2Proof

/-! ### The bits consumed (R29, R86, R150 item 2) -/

namespace Sys2Proof.Machine

variable {s : State}

/-- R29: the record grows in exactly the cycles that consume a bit, a reset edge included (log 4). -/
theorem cycleResult_consumed (s : State) :
    (cycleResult s).consumed = s.consumed ++ if consumesBit s then [s.inputs.bitData] else [] := by
  rcases cycle_cases s with
    hr | ⟨hr, hp⟩ | ⟨hr, he⟩ | ⟨hr, hp, he, hv⟩ | ⟨hr, hp, he, hv, hs⟩ | ⟨hr, hp, he, hv, hs⟩
  · rw [cycleResult_reset hr, State.resetRegisters_consumed, handshakes_eq, consumesBit]
  · have hc : consumesBit s = false := by simp [consumesBit, bitReady, hp]
    rw [cycleResult_host hr hp, hc]
    cases s.inputs.twEn <;> cases s.inputs.start <;> simp
  · rw [cycleResult_emit hr he, consumesBit_of_emit he]
    cases s.inputs.symReady <;> simp
  · rw [cycleResult_bit hr hp he hv, consumesBit_of_noEmit hp he, hv, if_pos rfl]
    split_ifs <;> rfl
  · simp only [cycleResult_eos hr hp he hv hs, consumesBit_of_noEmit hp he, hv, Bool.false_eq_true, if_false,
      List.append_nil]
    split_ifs <;> rfl
  · simp [cycleResult_stall hr hp he hv hs, consumesBit_of_noEmit hp he, hv]

/-- R150 item 2: a source that holds offers the bit that was not consumed again. -/
theorem bit_held {next : Inputs} (hv : s.inputs.bitValid = true) (hc : consumesBit s = false)
    (hh : sourceHolds s next = true) : next.bitValid = true ∧ next.bitData = s.inputs.bitData := by
  have hb : bitReady s = false := by simpa [consumesBit, hv] using hc
  simpa [sourceHolds, hv, hb] using hh

end Sys2Proof.Machine

namespace Sys2Proof

open Sys2Proof.Machine in
/-- Settles O36, by induction on the waiting cycles: each records no bit and passes the same bit on. -/
theorem heldBitIsConsumedOnce : Obligations.HeldBitIsConsumedOnce := by
  intro k
  induction k with
  | zero =>
    intro s _ _ hc
    rw [runCycles_one, State.endCycle_consumed, cycleResult_consumed]
    exact congrArg (s.consumed ++ ·) (if_pos hc)
  | succ k ih =>
    intro s hv hwait hc
    obtain ⟨hc0, hh0⟩ : consumesBit s = false ∧ sourceHolds s (runCycles 1 s).inputs = true := hwait 0 k.succ_pos
    obtain ⟨hv1, hd1⟩ := bit_held hv hc0 hh0
    have htail : ∀ j, j < k → consumesBit (runCycles j (runCycles 1 s)) = false ∧
        sourceHolds (runCycles j (runCycles 1 s)) (runCycles (j + 1) (runCycles 1 s)).inputs = true := by
      intro j hj
      rw [← runCycles_succ_one, ← runCycles_succ_one]
      exact hwait (j + 1) (Nat.succ_lt_succ hj)
    have hsame : (runCycles 1 s).consumed = s.consumed := by
      rw [runCycles_one, State.endCycle_consumed, cycleResult_consumed, if_neg (Bool.eq_false_iff.1 hc0),
        List.append_nil]
    rw [runCycles_succ_one, ih (runCycles 1 s) hv1 htail (by rwa [← runCycles_succ_one]), hsame, hd1]

end Sys2Proof

/-! ### A run at any time is what `decode` makes of the bits consumed (R86, R88) -/

namespace Sys2Proof.Machine

variable {s u : State} {k : Nat} {bits rest : List Bool}

@[simp] theorem StreamOutcome.addBits_zero (o : StreamOutcome) : o.addBits 0 = o := by cases o <;> rfl

/-- What strict `decode` makes of a stream from a state in RUN, whatever the run's own `strict`. -/
def strictDecode (s : State) (rest : List Bool) : List SymbolByte × StreamOutcome :=
  pendingDecode { s with strict := true } rest

/-- At the root, this is R88's `decode`. -/
theorem strictDecode_root (hc : s.cursor = 0#9) : strictDecode s rest = decodeStream s.mem.read rest true :=
  pendingDecode_root hc

theorem strictDecode_emit (he : emit s = true) :
    strictDecode s rest = afterSymbol (symField s.node) (decodeStream s.mem.read rest true) :=
  pendingDecode_emit (s := { s with strict := true }) he

/-- With no bit left, strict `decode` answers the symbol on offer and the cursor. -/
theorem strictDecode_nil : strictDecode u [] =
    if emit u then ([symData u], .done 0)
    else if u.cursor = 0#9 then ([], .done 0) else ([], .truncatedStream u.cursor 0) := by
  cases he : emit u
  · rw [strictDecode, pendingDecode_nil (s := { u with strict := true }) he]
    by_cases hc : u.cursor = 0#9 <;> simp [hc]
  · rw [strictDecode_emit he, decodeStream, decodeFrom_nil]
    simp [afterSymbol, symData, he]

/-- R83 at the event level: the symbol on offer, handed over, stands in front of what is decoded. -/
theorem strictDecode_handOver {w : State} (he : emit s = true) (hw : w = (s.sinkTakes (symField s.node)).setCursor 0#9) :
    strictDecode s rest = afterSymbol (symField s.node) (strictDecode w rest) := by
  subst hw
  rw [strictDecode_emit he, strictDecode_root (State.setCursor_cursor ..)]
  rfl

/-- R81 at the event level: a bit that selects a present link stands in front of what is decoded from there. -/
theorem strictDecode_follow {w : State} {b : Bool} (hp : s.phase = .run) (ht : tagBit s.node = false)
    (hl : wordLink s.node b ≠ 0#9) (hw : w = (s.bitConsumed b).setCursor (wordLink s.node b)) :
    strictDecode s (b :: rest) = afterBit (strictDecode w rest) := by
  subst hw
  exact pendingDecode_followed (s := { s with strict := true }) hp ht hl

/-- From `s` to `u` the first `n` bits of the stream are consumed and the symbols `syms` are taken, and `decode` of
these bits goes on from `u` (R86). -/
structure Applied (s : State) (bits : List Bool) (n : Nat) (syms : List SymbolByte) (u : State) : Prop where
  bounded : n ≤ bits.length
  consumed : u.consumed = s.consumed ++ bits.take n
  taken : u.taken = s.taken ++ syms
  decoded : strictDecode s (bits.take n) = (syms ++ (strictDecode u []).1, (strictDecode u []).2.addBits n)

variable {n : Nat} {syms : List SymbolByte}

theorem Applied.refl (s : State) (bits : List Bool) : Applied s bits 0 [] s where
  bounded := Nat.zero_le _
  consumed := by simp
  taken := by simp
  decoded := by simp

/-- The end of a cycle applies nothing. -/
theorem Applied.endCycle (h : Applied s.endCycle bits n syms u) : Applied s bits n syms u :=
  ⟨h.bounded, h.consumed, h.taken, h.decoded⟩

/-- R83: a hand-over puts its symbol in front. -/
theorem Applied.handOver {w : State} (he : emit s = true) (hw : w = (s.sinkTakes (symField s.node)).setCursor 0#9)
    (h : Applied w bits n syms u) : Applied s bits n (symField s.node :: syms) u where
  bounded := h.bounded
  consumed := by rw [h.consumed, hw]; rfl
  taken := by rw [h.taken, hw]; simp
  decoded := by rw [strictDecode_handOver he hw, h.decoded]; rfl

/-- R81: a bit that is consumed stands in front. -/
theorem Applied.followLink {w : State} {b : Bool} (hp : s.phase = .run) (ht : tagBit s.node = false)
    (hl : wordLink s.node b ≠ 0#9) (hw : w = (s.bitConsumed b).setCursor (wordLink s.node b))
    (h : Applied w rest n syms u) : Applied s (b :: rest) (n + 1) syms u where
  bounded := Nat.succ_le_succ h.bounded
  consumed := by rw [h.consumed, hw]; simp
  taken := by rw [h.taken, hw]; rfl
  decoded := by
    rw [List.take_succ_cons, strictDecode_follow hp ht hl hw, h.decoded, afterBit, StreamOutcome.addBits_addBits,
      Nat.add_comm]

theorem iterate_endCycle_phase (k : Nat) (s : State) : (State.endCycle^[k] s).phase = s.phase := by
  induction k generalizing s with
  | zero => rfl
  | succ k ih => exact ih s.endCycle

/-- R107: a run that a delivered stream leaves in RUN was in RUN before. -/
theorem phase_run_of_delivers (hd : delivers k bits s = true) (hu : (runCycles k s).phase = .run) : s.phase = .run := by
  by_contra hp
  obtain ⟨-, hrest⟩ := runCycles_rest hp fun _ => hostKeepsOff_of_delivers hd
  rw [hrest, iterate_endCycle_phase] at hu
  exact hp hu

/-- R86: as long as a run lasts, the bits consumed are applied, and no other. -/
theorem applied_of_delivers (hd : delivers k bits s = true) (hu : (runCycles k s).phase = .run) :
    ∃ n syms, Applied s bits n syms (runCycles k s) := by
  induction k generalizing s bits with
  | zero => exact ⟨0, [], .refl s bits⟩
  | succ k ih =>
    have hp := phase_run_of_delivers hd hu
    obtain ⟨hk, ho, hd'⟩ := delivers_succ_iff.1 hd
    have hr := rst_false_of_hostKeepsOff hk
    rw [runCycles_succ_one] at hu ⊢
    have hp1 := phase_run_of_delivers hd' hu
    obtain ⟨n, syms, h⟩ := ih hd' hu
    rw [runCycles_one] at hp1 h ⊢
    generalize runCycles k (cycleResult s).endCycle = u at h ⊢
    have h' := h.endCycle
    rcases cycle_cases s with hr' | ⟨-, hp'⟩ | ⟨-, he⟩ | ⟨-, -, he, hv⟩ | ⟨-, -, he, hv, hs⟩ | ⟨-, -, he, hv, hs⟩
    · simp [hr] at hr'
    · exact absurd hp hp'
    · have hw := cycleResult_emit hr he
      simp only [consumesBit_of_emit he, Bool.false_eq_true, if_false] at h'
      split_ifs at hw
      · exact ⟨n, _, h'.handOver he hw⟩
      · exact ⟨n, syms, hw ▸ h'⟩
    · have hw := cycleResult_bit hr hp he hv
      have hc : consumesBit s = true := by rw [consumesBit_of_noEmit hp he, hv]
      rw [if_pos hc] at h'
      rw [stream_of_sourceObeys_bit hc ho]
      split_ifs at hw with hb
      · simp [hw] at hp1
      · obtain ⟨ht, hl⟩ := not_or.1 hb
        exact ⟨n + 1, syms, h'.followLink hp (by simpa using ht) hl hw⟩
    · rw [State.endCycle_phase, cycleResult_eos hr hp he hv hs] at hp1
      split_ifs at hp1 <;> simp at hp1
    · simp only [consumesBit_of_noEmit hp he, hv, Bool.false_eq_true, if_false] at h'
      exact ⟨n, syms, cycleResult_stall hr hp he hv hs ▸ h'⟩

end Sys2Proof.Machine

namespace Sys2Proof

open Sys2Proof.Machine in
/-- Settles O40: `decode` of the bits consumed goes on from the present state with no bit left. -/
theorem cursorIsTheAppliedPrefix : Obligations.CursorIsTheAppliedPrefix := by
  intro s bits k _ hc hd hu
  obtain ⟨n, syms, h⟩ := applied_of_delivers hd hu
  refine ⟨n, syms, h.bounded, h.consumed, h.taken, ?_⟩
  rw [← strictDecode_root hc, h.decoded, strictDecode_nil]
  split_ifs <;> simp [StreamOutcome.addBits]

open Sys2Proof.Machine in
/-- Settles O41: START leaves a run at the root, which decodes the stream delivered to it. -/
theorem runAgreesWithDecode : Obligations.RunAgreesWithDecode := by
  intro s t bits k hp hr hs hst hd
  obtain rfl := eq_runCycles_one hst
  obtain ⟨-, -, hstrict, -, -, htaken, hconsumed⟩ := start_result hp hr hs
  obtain ⟨hbound, hended, hresult⟩ := runAgrees_after_start hp hr hs hd
  refine ⟨hbound, hended, fun hu => ?_⟩
  have hend := hresult hu
  refine ⟨htaken ▸ hend.taken, hconsumed ▸ hend.consumed, hend.strict.trans hstrict, hend.mem, hend.report.trans ?_⟩
  cases (decodeStream (runCycles 1 s).mem.read bits s.inputs.strictI).2 <;> rfl

end Sys2Proof

/-! ### The step is the listing of R108 -/

namespace Sys2Proof.Machine

variable {s : State} {p q : Inputs}

/-- R60: the listing's test of bit 18 is the tag. -/
theorem extractLsb'_tag_iff (w : NodeWord) : w.extractLsb' 18 1 = 1#1 ↔ tagBit w = true := by
  rw [tagBit_iff_toNat, ← BitVec.toNat_inj, BitVec.extractLsb'_toNat, Nat.shiftRight_eq_div_pow]
  have hw : w.toNat < 2 ^ 19 := w.isLt
  simp only [BitVec.toNat_ofNat]
  omega

/-- R62: the slice the listing selects is the link the bit selects. -/
theorem extractLsb'_link (w : NodeWord) (b : Bool) :
    (if b = false then w.extractLsb' 9 9 else w.extractLsb' 0 9) = wordLink w b := by
  cases b <;> rfl

/-- R27: the condition `emit` of the listing, with bit 18 read as the tag. -/
theorem listing_emit_iff (s : State) :
    s.phase = .run ∧ tagBit (s.mem.read s.cursor) = true ∧ s.cursor ≠ 0#9 ↔ emit s = true := by
  rw [and_comm (a := tagBit _ = true)]
  exact (emit_iff s).symm

theorem listingStep_reset (hr : p.rst = true) : listingStep s p = s.resetRegisters := if_pos hr

theorem listingStep_host (hr : p.rst = false) (hp : s.phase ≠ .run) :
    listingStep s p =
      let u := if p.twEn then s.storeNode p.twAddr p.twData else s
      if p.start then u.beginRun p.strictI else u := by
  simp only [listingStep, hr, Bool.false_eq_true, if_false, if_pos hp]
  cases p.twEn <;> rfl

/-- R108 in RUN, with the derived conditions and the named register writes of the model. -/
theorem listingStep_run (hr : p.rst = false) (hp : s.phase = .run) :
    listingStep s p =
      if emit s then if p.symReady then s.setCursor 0#9 else s
      else if p.bitValid then
        if tagBit s.node = true ∨ wordLink s.node p.bitData = 0#9 then s.raiseBrokenTree p.bitData
        else s.setCursor (wordLink s.node p.bitData)
      else if p.bitEos then
        if s.cursor = 0#9 then s.setPhase .done
        else if s.strict = false then (s.setPhase .done).setCursor 0#9
        else s.raiseTruncatedStream
      else s := by
  simp only [listingStep, listing_emit_iff, extractLsb'_tag_iff, extractLsb'_link, hr, Bool.false_eq_true, if_false]
  exact if_neg (not_not.2 hp)

/-- What a cycle with the inputs `p` does to the environment (R29): the two handshakes are recorded, and `ps` is left
of the script. -/
def State.environmentMoves (s : State) (p : Inputs) (ps : List Inputs) : State :=
  { s with
    pins := ps
    cycle := s.cycle + 1
    taken := s.taken ++ (if symValid s && p.symReady then [symData s] else [])
    consumed := s.consumed ++ (if bitReady s && p.bitValid then [p.bitData] else []) }

end Sys2Proof.Machine

namespace Sys2Proof

section
open Sys2Proof.Machine

variable {s s' : State} {p q : Inputs}

theorem sameHardware_handshakes (s : State) : SameHardware s.handshakes s := by
  rw [handshakes_eq]
  exact .refl s

theorem handshakes_endCycle (s : State) :
    s.handshakes.endCycle = s.environmentMoves s.inputs s.pins.tail := by
  rw [handshakes_eq]
  rfl

theorem sameHardware_environmentMoves (s : State) (p : Inputs) (ps : List Inputs) :
    SameHardware (s.environmentMoves p ps) s := .refl s

theorem handshakes_of_rest (hp : s.phase ≠ .run) : s.handshakes = s := by
  simp [handshakes_eq, symValid, bitReady, emit_false_of_phase hp, hp]

theorem handshakes_of_emit (he : emit s = true) :
    s.handshakes = if s.inputs.symReady then s.sinkTakes (symField s.node) else s := by
  simp [State.handshakes, symValid, symData, bitReady, he]

theorem handshakes_of_noEmit (hp : s.phase = .run) (he : emit s = false) :
    s.handshakes = if s.inputs.bitValid then s.bitConsumed s.inputs.bitData else s := by
  simp [State.handshakes, symValid, bitReady, hp, he]

/-- R108, R29: a cycle records its handshakes and does to the hardware what the listing says. -/
theorem cycleResult_eq_listingStep (s : State) : cycleResult s = listingStep s.handshakes s.inputs := by
  have he' := (sameHardware_handshakes s).emit_eq
  obtain ⟨hp', -⟩ := sameHardware_handshakes s
  rcases cycle_cases s with
    hr | ⟨hr, hp⟩ | ⟨hr, he⟩ | ⟨hr, hp, he, hv⟩ | ⟨hr, hp, he, hv, hs⟩ | ⟨hr, hp, he, hv, hs⟩
  · rw [cycleResult_reset hr, listingStep_reset hr]
  · rw [cycleResult_host hr hp, handshakes_of_rest hp, listingStep_host hr hp]
  · rw [cycleResult_emit hr he, listingStep_run hr (hp'.trans ((emit_iff s).1 he).1), he', he, handshakes_of_emit he]
    cases s.inputs.symReady <;> rfl
  · rw [cycleResult_bit hr hp he hv, listingStep_run hr (hp'.trans hp), he', he, handshakes_of_noEmit hp he, hv]
    rfl
  · rw [cycleResult_eos hr hp he hv hs, listingStep_run hr (hp'.trans hp), he', he, handshakes_of_noEmit hp he, hv, hs]
    cases hstrict : s.strict <;> simp [hstrict]
  · rw [cycleResult_stall hr hp he hv hs, listingStep_run hr (hp'.trans hp), he', he, handshakes_of_noEmit hp he, hv,
      hs]
    rfl

/-- R108: the listing leaves the records and the script alone. -/
theorem sameEnvironment_listingStep (s : State) (p : Inputs) : SameEnvironment (listingStep s p) s := by
  unfold listingStep
  dsimp only
  split_ifs <;> exact ⟨rfl, rfl, rfl, rfl⟩

/-- R32: the listing reads nothing but the hardware and the inputs. -/
theorem SameHardware.listingStep (h : SameHardware s s') (p : Inputs) :
    SameHardware (listingStep s p) (listingStep s' p) := by
  obtain ⟨hp, hc, hs, hr, hb, hm⟩ := h
  simp only [Machine.listingStep, hp, hc, hs, hm]
  split_ifs <;> simp [SameHardware, *]

/-- R108: the listing neither reads nor writes the script, so the end of the cycle may come first. -/
theorem listingStep_endCycle (s : State) (p : Inputs) : (listingStep s p).endCycle = listingStep s.endCycle p := by
  simp only [Machine.listingStep, apply_ite State.endCycle]
  rfl

/-- R108, R9: a step is the listing, once the environment has moved. -/
theorem step_eq_listingStep (s : State) :
    step s = .next (listingStep (s.environmentMoves s.inputs s.pins.tail) s.inputs) := by
  rw [step_eq, cycleResult_eq_listingStep, listingStep_endCycle, handshakes_endCycle]

/-- R29: the outputs are those of the listing. -/
theorem out_eq_listingOut (s : State) : out s = listingOut s := by
  have he : decide (s.phase = .run ∧ (s.mem.read s.cursor).extractLsb' 18 1 = 1#1 ∧ s.cursor ≠ 0#9) = emit s := by
    simp only [extractLsb'_tag_iff, listing_emit_iff, Bool.decide_eq_true]
  simp only [listingOut, he, out]
  cases s.err <;> rfl

end

open Sys2Proof.Machine in
/-- Settles O8: a cycle is the listing after the handshakes, which write the records alone. -/
theorem stepIsTheListing : Obligations.StepIsTheListing := by
  intro s
  obtain ⟨hpins, hcycle, htaken, hconsumed⟩ :=
    sameEnvironment_listingStep (s.environmentMoves s.inputs s.pins.tail) s.inputs
  exact ⟨out_eq_listingOut s, _, step_eq_listingStep s, (sameHardware_environmentMoves s _ _).listingStep _, htaken,
    hconsumed, hpins, hcycle⟩

end Sys2Proof

/-! ### The ports that a phase does not look at (R106, R107) -/

namespace Sys2Proof

section
open Sys2Proof.Machine

variable {s : State} {p q : Inputs}

theorem step_cons (s : State) (p : Inputs) (ps : List Inputs) :
    step { s with pins := p :: ps } = .next (listingStep (s.environmentMoves p ps) p) :=
  step_eq_listingStep { s with pins := p :: ps }

/-- R29: the records follow the ports of the stream and of the sink only. -/
theorem environmentMoves_congr (hv : p.bitValid = q.bitValid) (hd : p.bitData = q.bitData)
    (hy : p.symReady = q.symReady) (ps : List Inputs) : s.environmentMoves p ps = s.environmentMoves q ps := by
  rw [State.environmentMoves, hv, hd, hy]
  rfl

/-- R107: outside RUN there is no handshake to record. -/
theorem environmentMoves_of_rest (hp : s.phase ≠ .run) (p : Inputs) (ps : List Inputs) :
    s.environmentMoves p ps = { s with pins := ps, cycle := s.cycle + 1 } := by
  simp [State.environmentMoves, symValid, bitReady, emit_false_of_phase hp, hp]

/-- R106: in RUN the listing does not look at the host's ports. -/
theorem listingStep_congr_of_run (hp : s.phase = .run) (hr : p.rst = q.rst) (hv : p.bitValid = q.bitValid)
    (hd : p.bitData = q.bitData) (hs : p.bitEos = q.bitEos) (hy : p.symReady = q.symReady) :
    listingStep s p = listingStep s q := by
  cases hq : q.rst
  · rw [listingStep_run (hr.trans hq) hp, listingStep_run hq hp, hv, hd, hs, hy]
  · rw [listingStep_reset (hr.trans hq), listingStep_reset hq]

/-- R107: outside RUN the listing does not look at the ports of the stream and of the sink. -/
theorem listingStep_congr_of_rest (hp : s.phase ≠ .run) (hr : p.rst = q.rst) (hs : p.start = q.start)
    (hi : p.strictI = q.strictI) (ht : p.twEn = q.twEn) (ha : p.twAddr = q.twAddr) (hd : p.twData = q.twData) :
    listingStep s p = listingStep s q := by
  cases hq : q.rst
  · rw [listingStep_host (hr.trans hq) hp, listingStep_host hq hp, hs, hi, ht, ha, hd]
  · rw [listingStep_reset (hr.trans hq), listingStep_reset hq]

/-- R107: the cycles of a resting phase leave the hardware and the records as they are. -/
theorem iterate_endCycle_keeps (k : Nat) (s : State) :
    SameHardware (State.endCycle^[k] s) s ∧ (State.endCycle^[k] s).taken = s.taken ∧
      (State.endCycle^[k] s).consumed = s.consumed := by
  induction k generalizing s with
  | zero => exact ⟨.refl s, rfl, rfl⟩
  | succ k ih => exact ih s.endCycle

end

open Sys2Proof.Machine in
/-- Settles O29: in RUN neither the listing nor the handshakes look at the host's ports, and of the transitions of
`phase` only RESET leads to IDLE. -/
theorem runIgnoresTheHostPort : Obligations.RunIgnoresTheHostPort := by
  intro s hp
  refine ⟨fun p q ps hr hv hd hs hy => ?_, fun t h hidle => ?_⟩
  · rw [step_cons, step_cons, environmentMoves_congr hv hd hy,
      listingStep_congr_of_run (s := s.environmentMoves q ps) hp hr hv hd hs hy]
  · have hne : t.phase ≠ s.phase := by simp [hidle, hp]
    rcases phaseTransitionsAreTheListed s t h hne with ⟨-, hr⟩ | ⟨hphase, -⟩ | ⟨hphase, -⟩ | ⟨hphase, -⟩
    · exact hr
    all_goals simp [hidle] at hphase

open Sys2Proof.Machine in
/-- Settles O30: outside RUN there is no handshake, the listing does not look at the stream and sink ports, and a
cycle in which the host keeps off only ends. -/
theorem restIgnoresTheStreamPorts : Obligations.RestIgnoresTheStreamPorts := by
  intro s p q ps hp
  have hready : bitReady s = false := by simp [bitReady, hp]
  refine ⟨fun hr hs hi ht ha hd => ?_, hready, emit_false_of_phase hp, fun k hk => ?_⟩
  · rw [step_cons, step_cons, environmentMoves_of_rest hp, environmentMoves_of_rest hp]
    exact congrArg _ (listingStep_congr_of_rest hp hr hs hi ht ha hd)
  · have hoff : ∀ j, j < k → hostKeepsOff (runCycles j s) = true := by
      intro j hj
      obtain ⟨hr, hs, ht⟩ := hk j hj
      simp [hostKeepsOff, hr, hs, ht]
    rw [(runCycles_rest hp hoff).2]
    obtain ⟨hw, hrecords⟩ := iterate_endCycle_keeps k s
    exact ⟨hw, hw.out_eq, hrecords⟩

end Sys2Proof

/-! ### What the host's and the stream's events do (R101 to R105) -/

namespace Sys2Proof

section
open Sys2Proof.Machine

variable {s : State}

/-- R103: WRNODE and START at one edge both act. -/
theorem cycleResult_wrnodeStart (hr : s.inputs.rst = false) (hp : s.phase ≠ .run) (ht : s.inputs.twEn = true)
    (hs : s.inputs.start = true) :
    cycleResult s = (s.storeNode s.inputs.twAddr s.inputs.twData).beginRun s.inputs.strictI := by
  rw [cycleResult_host hr hp, if_pos ht, if_pos hs]

end

open Sys2Proof.Machine in
/-- Settles O13: each meaning is off where its rule does not apply. -/
theorem nothingActsOutOfPlace : Obligations.NothingActsOutOfPlace := fun _ =>
  ⟨fun hp l r _ c => ⟨execNode_off l r (.inl hp), execLeaf_off c hp⟩, fun hv l r => execNode_off l r (.inr hv),
    execEos_off⟩

open Sys2Proof.Machine in
/-- Settles O14: outside RUN the meaning is `storeNode`, and in RUN it is off. -/
theorem wrnodeStoresOneWord : Obligations.WrnodeStoresOneWord := by
  intro i v s
  have hx : exec (.wrnode i v) s = _ := execWrnode_eq i v s
  refine ⟨fun hp => ⟨s.storeNode i v, hx.trans (congrArg _ (if_neg hp)), rfl, ?_, ?_, fun j hj => ⟨?_, ?_⟩⟩,
    fun hp => hx.trans (congrArg _ (if_pos hp))⟩
  · exact Memory.read_write_same ..
  · exact Memory.written_write_same ..
  · exact Memory.read_write_ne _ _ hj
  · exact Memory.written_write_ne _ _ hj

open Sys2Proof.Machine in
/-- Settles O15: outside RUN the meaning is `beginRun`, and in RUN it is off. -/
theorem startBeginsARun : Obligations.StartBeginsARun := by
  intro b s
  have hx : exec (.start b) s = _ := execStart_eq b s
  exact ⟨fun hp => ⟨s.beginRun b, hx.trans (congrArg _ (if_neg hp)), rfl, rfl, rfl, rfl, rfl⟩,
    fun hp => hx.trans (congrArg _ (if_pos hp))⟩

open Sys2Proof.Machine in
/-- Settles O16, by the cursor and `strict`. -/
theorem eosEndsTheRun : Obligations.EosEndsTheRun := by
  refine ⟨fun s he => execEos_off (.inr he), fun s hp he => ⟨⟨_, execEos_on hp he, ?_, rfl, ?_, ?_⟩, ?_⟩⟩
  · split_ifs <;> rfl
  · split_ifs <;> simp [out, *]
  · split_ifs <;> rfl
  · intro hr hv hs
    refine step_of_cycleInstrs ((cycleInstrs_run hr hp).trans ?_)
    rw [runEvents_noBit he hv, if_pos hs]

open Sys2Proof.Machine in
/-- Settles O17: both stalls are the end of the cycle and nothing else. -/
theorem stallChangesNothing : Obligations.StallChangesNothing := by
  intro s
  refine ⟨rfl, fun hr hp he hv hs => ⟨(out_of_noEmit hp he).1, ?_⟩, fun hr he hy => ?_⟩
  · rw [step_eq, cycleResult_stall hr hp he hv hs]
  · rw [step_eq, cycleResult_held hr he hy]

open Sys2Proof.Machine in
/-- Settles O20: the run begins in the memory in which the word is stored. -/
theorem wrnodeWithStartBothAct : Obligations.WrnodeWithStartBothAct := by
  intro s hr hp ht hs
  refine ⟨_, step_eq s, ?_⟩
  rw [cycleResult_wrnodeStart hr hp ht hs]
  have hread := Memory.read_write_same s.mem s.inputs.twAddr s.inputs.twData
  exact ⟨rfl, rfl, rfl, rfl, rfl, hread, fun j hj => Memory.read_write_ne _ _ hj,
    fun h0 => congrArg decode (h0 ▸ hread)⟩

end Sys2Proof

/-! ### Faults and priority (R120 to R128) -/

namespace Sys2Proof.Machine

variable {s : State}

/-- R124, R30, R29: the outputs in phase ERROR. -/
theorem out_of_error (hp : s.phase = .error) :
    (out s).error = true ∧ (out s).busy = false ∧ (out s).bitReady = false ∧ (out s).symValid = false := by
  have he : emit s = false := emit_false_of_phase (by simp [hp])
  simp [out, bitReady, symValid, hp, he]

/-- R82, R84, R121: a word with no link for the bit is a LEAF at the root, since a LEAF elsewhere is an emission, or
a NODE whose selected link is missing. -/
theorem word_of_broken {b : Bool} (hp : s.phase = .run) (he : emit s = false)
    (hb : tagBit s.node = true ∨ wordLink s.node b = 0#9) :
    (∃ v c, decode s.node = .leaf v c ∧ s.cursor = 0#9) ∨
      ∃ l r, decode s.node = .node l r ∧ (if b then r else l) = 0#9 := by
  cases ht : tagBit s.node
  · have hw := decode_of_node s.node ht
    have hl : wordLink s.node b = 0#9 := hb.resolve_left (by simp [ht])
    exact .inr ⟨_, _, hw, (wordLink_of_decode hw b).symm.trans hl⟩
  · have hw := decode_of_leaf s.node ht
    have hc : s.cursor = 0#9 := by
      by_contra hne
      simp [emit_of_leaf hp hne hw] at he
    exact .inl ⟨_, _, hw, hc⟩

/-- R120, R124, R125: a cycle that enters ERROR takes one of the two faults, in RUN with no emission pending. -/
theorem cycleResult_fault_cases (hne : s.phase ≠ .error) (ht : (cycleResult s).phase = .error) :
    s.phase = .run ∧ s.inputs.rst = false ∧ emit s = false ∧
      ((s.inputs.bitValid = true ∧ (tagBit s.node = true ∨ wordLink s.node s.inputs.bitData = 0#9) ∧
          cycleResult s = (s.bitConsumed s.inputs.bitData).raiseBrokenTree s.inputs.bitData) ∨
        (s.inputs.bitValid = false ∧ s.inputs.bitEos = true ∧ s.strict = true ∧ s.cursor ≠ 0#9 ∧
          cycleResult s = s.raiseTruncatedStream)) := by
  rcases cycle_cases s with
    hr | ⟨hr, hp⟩ | ⟨hr, he⟩ | ⟨hr, hp, he, hv⟩ | ⟨hr, hp, he, hv, hs⟩ | ⟨hr, hp, he, hv, hs⟩
  · simp [cycleResult_reset hr] at ht
  · cases hs : s.inputs.start
    · exact absurd ((cycleResult_controls_of_noStart hr hp hs).1.symm.trans ht) hne
    · simp [cycleResult_phase_of_start hr hp hs] at ht
  · rw [cycleResult_emit hr he] at ht
    split_ifs at ht <;> exact absurd ht hne
  · rw [cycleResult_bit hr hp he hv] at ht ⊢
    split_ifs at ht ⊢ with hb
    · exact ⟨hp, hr, he, .inl ⟨hv, hb, rfl⟩⟩
    · exact absurd ht hne
  · rw [cycleResult_eos hr hp he hv hs] at ht ⊢
    split_ifs at ht ⊢ with hc hstrict
    · simp at ht
    · exact ⟨hp, hr, he, .inr ⟨hv, hs, hstrict, hc, rfl⟩⟩
    · simp at ht
  · rw [cycleResult_stall hr hp he hv hs] at ht
    exact absurd ht hne

/-- R107, R128: outside RUN and without reset or START, a cycle is at most a WRNODE. -/
theorem cycleResult_of_noStart (hr : s.inputs.rst = false) (hp : s.phase ≠ .run) (hs : s.inputs.start = false) :
    cycleResult s = if s.inputs.twEn then s.storeNode s.inputs.twAddr s.inputs.twData else s := by
  simp [cycleResult_host hr hp, hs]

end Sys2Proof.Machine

namespace Sys2Proof

open Sys2Proof.Machine in
/-- Settles O24: the cycle takes one of the two faults, and what a fault writes is its code and its bit. -/
theorem faultEntryIsPrecise : Obligations.FaultEntryIsPrecise := by
  intro s t h hne ht
  have hout := out_of_error ht
  obtain rfl := (step_next_iff s t).1 h
  obtain ⟨hp, hr, he, ⟨hv, hb, hw⟩ | ⟨hv, hs, hstrict, hc, hw⟩⟩ := cycleResult_fault_cases hne ht
  · rw [hw] at hout ⊢
    exact ⟨hp, hr, he, rfl, rfl, rfl, rfl, .inl ⟨hv, rfl, rfl, rfl, word_of_broken hp he hb⟩, hout⟩
  · rw [hw] at hout ⊢
    exact ⟨hp, hr, he, rfl, rfl, rfl, rfl, .inr ⟨hv, hs, hstrict, hc, rfl, rfl, rfl⟩, hout⟩

open Sys2Proof.Machine in
/-- Settles O25: without reset and START a cycle in ERROR is at most a WRNODE, which writes the memory alone. -/
theorem errorIsLeftOnlyByStartOrReset : Obligations.ErrorIsLeftOnlyByStartOrReset := by
  intro s t h hp hr hs
  obtain rfl := (step_next_iff s t).1 h
  rw [cycleResult_of_noStart hr (by simp [hp]) hs]
  cases s.inputs.twEn
  · exact ⟨hp, rfl, rfl, rfl, rfl, rfl, rfl, fun _ => rfl⟩
  · exact ⟨hp, rfl, rfl, rfl, rfl, rfl, rfl, nofun⟩

open Sys2Proof.Machine in
/-- Settles O32: a reset decides the cycle, and after it a pending emission, by whether the sink is ready. -/
theorem priorityWithinACycle : Obligations.PriorityWithinACycle := by
  intro s t h
  obtain rfl := (step_next_iff s t).1 h
  refine ⟨fun hr => ?_, fun he hr => ?_⟩
  · exact ⟨by simp [cycleResult_reset hr], by simp [cycleResult_reset hr], cycleResult_mem_of_reset hr⟩
  · obtain ⟨hp, -, -⟩ := (emit_iff s).1 he
    rw [cycleResult_emit hr he]
    cases s.inputs.symReady
    · exact ⟨hp, rfl, rfl, nofun, fun _ => ⟨rfl, rfl⟩⟩
    · exact ⟨hp, rfl, rfl, fun _ => ⟨rfl, rfl⟩, nofun⟩

end Sys2Proof

/-! ### `decode(M, B, strict)` with and without `strict` (R104, R122) -/

namespace Sys2Proof.Machine

/-- The outcome with a partial path dropped, as a run that is not strict reports it (R104). -/
def StreamOutcome.dropPartialPath : StreamOutcome → StreamOutcome
  | .truncatedStream _ k => .done k
  | other => other

/-- The loop of R88 takes every bit alike, strict or not; only the end of the stream looks at `strict`. -/
theorem decodeFrom_not_strict (M : Image) (bits : List Bool) (cur : NodeIndex) (acc : List SymbolByte) (k : Nat) :
    decodeFrom M false bits cur acc k =
      ((decodeFrom M true bits cur acc k).1, (decodeFrom M true bits cur acc k).2.dropPartialPath) := by
  induction bits generalizing cur acc k with
  | nil =>
    rw [decodeFrom_nil, decodeFrom_nil]
    by_cases hc : cur = 0#9 <;> simp [hc, StreamOutcome.dropPartialPath]
  | cons b bs ih =>
    rcases loop_cases M cur b with hb | ⟨ht, hl, hleaf⟩ | ⟨ht, hl, hnode⟩
    · rw [decodeFrom_cons_broken hb, decodeFrom_cons_broken hb]
      rfl
    · rw [decodeFrom_cons_leaf ht hl hleaf, decodeFrom_cons_leaf ht hl hleaf, ih]
    · rw [decodeFrom_cons_node ht hl hnode, decodeFrom_cons_node ht hl hnode, ih]

end Sys2Proof.Machine

namespace Sys2Proof

open Sys2Proof.Machine in
/-- Settles O49: both components of the two loops from the root. -/
theorem strictOnlyAddsTruncation : Obligations.StrictOnlyAddsTruncation := by
  intro M bits
  exact Prod.ext_iff.1 (decodeFrom_not_strict M bits 0#9 [] 0)

end Sys2Proof

/-! ### Well-formed images (R144) -/

namespace Sys2Proof

section
open Sys2Proof.Machine

variable {s : State}

/-- R144: at a node of a well-formed image, with no emission pending, every bit has a link to follow. -/
theorem OnTree.link_present (h : OnTree s) (hp : s.phase = .run) (he : emit s = false) (b : Bool) :
    tagBit s.node = false ∧ wordLink s.node b ≠ 0#9 := by
  have hnode : tagBit s.node = false := by
    by_cases hc : s.cursor = 0#9
    · rw [State.node, hc]
      exact h.image.root_is_node
    · simpa [emit, isLeaf, hp, hc] using he
  exact ⟨hnode, h.image.links_present s.cursor b (h.reachable hp) hnode⟩

theorem OnTree.of_sameHardware {t : State} (h : OnTree s) (e : SameHardware t s) : OnTree t := by
  obtain ⟨hp, hc, -, hr, -, hm⟩ := e
  exact
    { image := by rw [hm]; exact h.image
      reachable := by rw [hp, hc, hm]; exact h.reachable
      not_broken := by rw [hr]; exact h.not_broken }

theorem onTree_resetRegisters (hm : WellFormedImage s.mem) : OnTree s.resetRegisters where
  image := hm
  reachable := by simp
  not_broken := by simp

theorem onTree_beginRun (hm : WellFormedImage s.mem) (b : Bool) : OnTree (s.beginRun b) where
  image := hm
  reachable := fun _ => .root
  not_broken := by simp

theorem onTree_raiseTruncatedStream (hm : WellFormedImage s.mem) : OnTree s.raiseTruncatedStream where
  image := hm
  reachable := by simp
  not_broken := by simp

theorem OnTree.setCursor (h : OnTree s) {i : NodeIndex} (hi : Reachable s.mem.read i) : OnTree (s.setCursor i) where
  image := h.image
  reachable := fun _ => hi
  not_broken := h.not_broken

theorem OnTree.setPhase_done (h : OnTree s) : OnTree (s.setPhase .done) where
  image := h.image
  reachable := by simp
  not_broken := h.not_broken

/-- R144: each kind of cycle keeps to the tree, if no WRNODE acts in it. -/
theorem onTree_cycleResult (h : OnTree s) (hw : s.phase ≠ .run → s.inputs.twEn = false) :
    OnTree (cycleResult s) := by
  rcases cycle_cases s with
    hr | ⟨hr, hp⟩ | ⟨hr, he⟩ | ⟨hr, hp, he, hv⟩ | ⟨hr, hp, he, hv, hs⟩ | ⟨hr, hp, he, hv, hs⟩
  · rw [cycleResult_reset hr]
    exact onTree_resetRegisters (h.of_sameHardware (sameHardware_handshakes s)).image
  · rw [cycleResult_host hr hp, hw hp]
    dsimp only
    split
    · exact onTree_beginRun h.image _
    · exact h
  · rw [cycleResult_emit hr he]
    split_ifs
    · exact (h.of_sameHardware (sameHardware_sinkTakes s _)).setCursor .root
    · exact h
  · obtain ⟨ht, hl⟩ := h.link_present hp he s.inputs.bitData
    rw [cycleResult_bit hr hp he hv, if_neg (by simp [ht, hl])]
    exact (h.of_sameHardware (sameHardware_bitConsumed s _)).setCursor
      (.link s.cursor s.inputs.bitData (h.reachable hp) ht hl)
  · rw [cycleResult_eos hr hp he hv hs]
    split_ifs
    · exact h.setPhase_done
    · exact onTree_raiseTruncatedStream h.image
    · exact h.setPhase_done.setCursor .root
  · rwa [cycleResult_stall hr hp he hv hs]

end

open Sys2Proof.Machine in
/-- Settles O44: each kind of cycle keeps to the tree, and the end of a cycle writes no hardware. -/
theorem wellFormedImageNeverBreaks : Obligations.WellFormedImageNeverBreaks := by
  intro s t h hw hst
  rw [(step_next_iff s t).1 hst]
  exact (onTree_cycleResult h hw).of_sameHardware (sameHardware_endCycle _)

end Sys2Proof

/-! ### Code Paths (R10, R88, R144) -/

namespace Sys2Proof.Machine

variable {M : Image} {strict : Bool} {cur i : NodeIndex} {b : Bool} {path bs rest : List Bool} {c : SymbolByte}
  {acc : List SymbolByte} {k : Nat}

/-- A walk takes its first bit at a NODE, along a present link. -/
theorem followPath_cons_eq_some_iff : followPath M cur (b :: bs) = some i ↔
    tagBit (M cur) = false ∧ wordLink (M cur) b ≠ 0#9 ∧ followPath M (wordLink (M cur) b) bs = some i := by
  cases ht : tagBit (M cur) <;> by_cases hl : wordLink (M cur) b = 0#9 <;> simp [followPath, ht, hl]

theorem followPath_append :
    followPath M cur (path ++ rest) = (followPath M cur path).bind (followPath M · rest) := by
  induction path generalizing cur with
  | nil => rfl
  | cons b bs ih =>
    simp only [List.cons_append, followPath, ih]
    split_ifs <;> rfl

/-- A walk that has come to a NODE goes on along a present link. -/
theorem followPath_concat (h : followPath M cur path = some i) (ht : tagBit (M i) = false)
    (hl : wordLink (M i) b ≠ 0#9) : followPath M cur (path ++ [b]) = some (wordLink (M i) b) := by
  rw [followPath_append, h]
  exact followPath_cons_eq_some_iff.2 ⟨ht, hl, rfl⟩

/-- A walk cannot go on from a LEAF. -/
theorem eq_nil_of_followPath_leaf (ht : tagBit (M cur) = true) (h : followPath M cur path = some i) : path = [] := by
  cases path with
  | nil => rfl
  | cons b bs => simp [(followPath_cons_eq_some_iff.1 h).1] at ht

theorem reachable_of_followPath (hcur : Reachable M cur) (h : followPath M cur path = some i) : Reachable M i := by
  induction path generalizing cur with
  | nil => cases h; exact hcur
  | cons b bs ih =>
    obtain ⟨ht, hl, h⟩ := followPath_cons_eq_some_iff.1 h
    exact ih (.link cur b hcur ht hl) h

/-- Only the empty walk ends at the root, since no link leads to it. -/
theorem eq_root_iff_of_followPath (h : followPath M 0#9 path = some i) : i = 0#9 ↔ path = [] := by
  cases path using List.reverseRecOn with
  | nil => cases h; simp
  | append_singleton bs b =>
    rw [followPath_append, Option.bind_eq_some_iff] at h
    obtain ⟨j, -, h⟩ := h
    obtain ⟨-, hl, h⟩ := followPath_cons_eq_some_iff.1 h
    cases h
    simp [hl]

/-- R10: a Code Path is a non-empty walk from the root to a LEAF with the symbol. -/
theorem isCodePath_iff : isCodePath M path c = true ↔
    path ≠ [] ∧ ∃ leaf, followPath M 0#9 path = some leaf ∧ tagBit (M leaf) = true ∧ symField (M leaf) = c := by
  cases path with
  | nil => simp [isCodePath]
  | cons b bs => cases h : followPath M 0#9 (b :: bs) <;> simp [isCodePath, h]

/-- The loop of R88 where a walk has come to `cur`: a LEAF there is emitted first. -/
def decodeArrived (M : Image) (strict : Bool) (bits : List Bool) (cur : NodeIndex) (acc : List SymbolByte) (k : Nat) :
    List SymbolByte × StreamOutcome :=
  if tagBit (M cur) then decodeFrom M strict bits 0#9 (acc ++ [symField (M cur)]) k
  else decodeFrom M strict bits cur acc k

theorem decodeArrived_node (ht : tagBit (M cur) = false) :
    decodeArrived M strict bs cur acc k = decodeFrom M strict bs cur acc k := by
  simp [decodeArrived, ht]

theorem decodeArrived_leaf (ht : tagBit (M cur) = true) :
    decodeArrived M strict bs cur acc k = decodeFrom M strict bs 0#9 (acc ++ [symField (M cur)]) k := if_pos ht

/-- A bit with a link to follow is consumed, and the loop arrives at that link. -/
theorem decodeFrom_cons_link (ht : tagBit (M cur) = false) (hl : wordLink (M cur) b ≠ 0#9) :
    decodeFrom M strict (b :: bs) cur acc k = decodeArrived M strict bs (wordLink (M cur) b) acc (k + 1) := by
  cases hleaf : tagBit (M (wordLink (M cur) b))
  · rw [decodeFrom_cons_node ht hl hleaf, decodeArrived_node hleaf]
  · rw [decodeFrom_cons_leaf ht hl hleaf, decodeArrived_leaf hleaf]

/-- The loop follows every walk to its end and emits nothing on the way. -/
theorem decodeArrived_append (h : followPath M cur path = some i) :
    decodeArrived M strict (path ++ rest) cur acc k = decodeArrived M strict rest i acc (k + path.length) := by
  induction path generalizing cur k with
  | nil => cases h; rfl
  | cons b bs ih =>
    obtain ⟨ht, hl, h⟩ := followPath_cons_eq_some_iff.1 h
    rw [decodeArrived_node ht, List.cons_append, decodeFrom_cons_link ht hl, ih h, List.length_cons, Nat.add_assoc,
      Nat.add_comm 1]

/-- A walk that is not empty starts at a NODE. -/
theorem decodeArrived_start (hne : path ≠ []) (h : followPath M cur path = some i) :
    decodeArrived M strict bs cur acc k = decodeFrom M strict bs cur acc k := by
  obtain ⟨b, bs, rfl⟩ := List.exists_cons_of_ne_nil hne
  exact decodeArrived_node (followPath_cons_eq_some_iff.1 h).1

/-- R88, R104: a stream that stops at a NODE is consumed and emits nothing; off the root it is truncated. -/
theorem decodeFrom_partialPath (h : followPath M 0#9 path = some i) (ht : tagBit (M i) = false) :
    decodeFrom M strict path 0#9 acc k =
      (acc, if path ≠ [] ∧ strict = true then .truncatedStream i (k + path.length) else .done (k + path.length)) := by
  by_cases hne : path = []
  · simp [hne, decodeFrom_nil]
  · have hi : i ≠ 0#9 := mt (eq_root_iff_of_followPath h).1 hne
    calc decodeFrom M strict path 0#9 acc k
      _ = decodeArrived M strict (path ++ []) 0#9 acc k := by rw [List.append_nil, decodeArrived_start hne h]
      _ = decodeFrom M strict [] i acc (k + path.length) := by rw [decodeArrived_append h, decodeArrived_node ht]
      _ = _ := by simp [decodeFrom_nil, hi, hne]

/-- R88: a Code Path is consumed and emits its symbol. -/
theorem decodeFrom_append_codePath (h : isCodePath M path c = true) :
    decodeFrom M strict (path ++ rest) 0#9 acc k =
      decodeFrom M strict rest 0#9 (acc ++ [c]) (k + path.length) := by
  obtain ⟨hne, i, hi, ht, rfl⟩ := isCodePath_iff.1 h
  rw [← decodeArrived_start hne hi, decodeArrived_append hi, decodeArrived_leaf ht]

/-- R88: concatenated Code Paths are consumed and emit their symbols in order. -/
theorem decodeFrom_append_codePaths {ps : List (List Bool × SymbolByte)}
    (h : ∀ p ∈ ps, isCodePath M p.1 p.2 = true) :
    decodeFrom M strict ((ps.map Prod.fst).flatten ++ rest) 0#9 acc k =
      decodeFrom M strict rest 0#9 (acc ++ ps.map Prod.snd) (k + (ps.map Prod.fst).flatten.length) := by
  induction ps generalizing acc k with
  | nil => simp
  | cons p ps ih =>
    obtain ⟨hp, hps⟩ := List.forall_mem_cons.1 h
    simp only [List.map_cons, List.flatten_cons, List.append_assoc, List.length_append]
    rw [decodeFrom_append_codePath hp, ih hps, List.append_assoc, Nat.add_assoc, List.singleton_append]

/-- The bits are Code Paths followed by a rest that leads from the root to a NODE (R144). -/
structure Splits (M : Image) (bits : List Bool) (ps : List (List Bool × SymbolByte)) (rest : List Bool)
    (node : NodeIndex) : Prop where
  code_paths : ∀ p ∈ ps, isCodePath M p.1 p.2 = true
  bits_eq : bits = (ps.map Prod.fst).flatten ++ rest
  follows : followPath M 0#9 rest = some node
  is_node : tagBit (M node) = false

variable {bits : List Bool} {ps : List (List Bool × SymbolByte)} {node : NodeIndex}

/-- One more bit makes the rest longer, where it leads to a NODE. -/
theorem Splits.concat_node (h : Splits M bits ps rest node) (hl : wordLink (M node) b ≠ 0#9)
    (ht : tagBit (M (wordLink (M node) b)) = false) :
    Splits M (bits ++ [b]) ps (rest ++ [b]) (wordLink (M node) b) where
  code_paths := h.code_paths
  bits_eq := by rw [h.bits_eq, List.append_assoc]
  follows := followPath_concat h.follows h.is_node hl
  is_node := ht

/-- One more bit makes the rest a Code Path, where it leads to a LEAF. -/
theorem Splits.concat_leaf (h : Splits M bits ps rest node) (hroot : tagBit (M 0#9) = false)
    (hl : wordLink (M node) b ≠ 0#9) (ht : tagBit (M (wordLink (M node) b)) = true) :
    Splits M (bits ++ [b]) (ps ++ [(rest ++ [b], symField (M (wordLink (M node) b)))]) [] 0#9 where
  code_paths := by
    have hpath : isCodePath M (rest ++ [b]) (symField (M (wordLink (M node) b))) = true :=
      isCodePath_iff.2 ⟨by simp, _, followPath_concat h.follows h.is_node hl, ht, rfl⟩
    exact List.forall_mem_append.2 ⟨h.code_paths, List.forall_mem_singleton.2 hpath⟩
  bits_eq := by simp [h.bits_eq]
  follows := rfl
  is_node := hroot

/-- R144: on a well-formed image every bit list splits, since every bit at a reachable NODE has a link. -/
theorem exists_splits {m : Memory} (h : WellFormedImage m) (bits : List Bool) :
    ∃ ps rest node, Splits m.read bits ps rest node := by
  induction bits using List.reverseRecOn with
  | nil => exact ⟨[], [], 0#9, by simp, rfl, rfl, h.root_is_node⟩
  | append_singleton bits b ih =>
    obtain ⟨ps, rest, node, hsplit⟩ := ih
    have hl : wordLink (m.read node) b ≠ 0#9 :=
      h.links_present node b (reachable_of_followPath .root hsplit.follows) hsplit.is_node
    cases ht : tagBit (m.read (wordLink (m.read node) b))
    · exact ⟨_, _, _, hsplit.concat_node hl ht⟩
    · exact ⟨_, _, _, hsplit.concat_leaf h.root_is_node hl ht⟩

/-- R88: bits that split are decoded to the symbols of their Code Paths, and their end is met at the NODE. -/
theorem Splits.decodeStream_eq (h : Splits M bits ps rest node) :
    decodeStream M bits strict =
      (ps.map Prod.snd, if rest ≠ [] ∧ strict = true then .truncatedStream node bits.length else .done bits.length) := by
  obtain ⟨hps, rfl, hfollow, hnode⟩ := h
  rw [decodeStream, decodeFrom_append_codePaths hps, decodeFrom_partialPath hfollow hnode, List.nil_append,
    Nat.zero_add, List.length_append]

end Sys2Proof.Machine

namespace Sys2Proof

open Sys2Proof.Machine in
/-- Settles O45: every bit list splits, and bits that split decode to the symbols of their Code Paths. -/
theorem wellFormedImageSplitsEveryStream : Obligations.WellFormedImageSplitsEveryStream := by
  intro m bits strict h
  obtain ⟨ps, rest, node, hsplit⟩ := exists_splits h bits
  exact ⟨ps, rest, node, hsplit.code_paths, hsplit.bits_eq, hsplit.follows, hsplit.is_node, hsplit.decodeStream_eq⟩

open Sys2Proof.Machine in
/-- Settles O46: the loop is back at the root after the Code Paths, and the stream ends there. -/
theorem codePathsDecodeToTheirSymbols : Obligations.CodePathsDecodeToTheirSymbols := by
  intro M strict ps h
  have hdecode := decodeFrom_append_codePaths (strict := strict) (rest := []) (acc := []) (k := 0) h
  simpa [decodeStream, decodeFrom_nil] using hdecode

open Sys2Proof.Machine in
/-- Settles O47: the shorter walk ends at a LEAF, from which the longer one cannot go on. -/
theorem codePathsArePrefixFree : Obligations.CodePathsArePrefixFree := by
  rintro M p _ c d hp hq ⟨rest, rfl⟩
  obtain ⟨-, i, hi, hti, rfl⟩ := isCodePath_iff.1 hp
  obtain ⟨-, j, hj, -, rfl⟩ := isCodePath_iff.1 hq
  rw [followPath_append, hi, Option.bind_some] at hj
  obtain rfl := eq_nil_of_followPath_leaf hti hj
  cases hj
  exact ⟨(List.append_nil p).symm, rfl⟩

end Sys2Proof

/-! ### Loading an image (R143) -/

namespace Sys2Proof.Machine

variable {s : State} {i : NodeIndex} {a : Nat} {v : NodeWord} {m : Memory}

/-- The memory after a WRNODE for each entry of `m`, in order. -/
def Memory.load (m base : Memory) : Memory := m.foldl (fun u c => u.write (BitVec.ofNat 9 c.1) c.2) base

theorem Memory.read_cons : Memory.read ((a, v) :: m) i = if i.toNat = a then v else Memory.read m i := by
  by_cases h : i.toNat = a <;> simp [Memory.read, Memory.lookup, h]

theorem Memory.written_cons : Memory.written ((a, v) :: m) i = (decide (i.toNat = a) || Memory.written m i) := by
  by_cases h : i.toNat = a <;> simp [Memory.written, Memory.lookup, h]

theorem Memory.written_eq_false_of_lt (h : ∀ c ∈ m, i.toNat < c.1) : Memory.written m i = false := by
  induction m with
  | nil => rfl
  | cons c m ih =>
    obtain ⟨hc, hm⟩ := List.forall_mem_cons.1 h
    rw [Memory.written_cons, ih hm, Bool.or_false, decide_eq_false hc.ne]

theorem Memory.wf_cons_iff : Memory.wf ((a, v) :: m) ↔ a < 512 ∧ (∀ c ∈ m, a < c.1) ∧ Memory.wf m := by
  simp only [Memory.wf, Config.depth, List.map_cons, List.pairwise_cons, List.forall_mem_map, List.forall_mem_cons]
  tauto

/-- R143: loading a canonical memory puts its entries over what was there. -/
theorem Memory.read_load (hm : Memory.wf m) (base : Memory) (i : NodeIndex) :
    (Memory.load m base).read i = if Memory.written m i then Memory.read m i else base.read i := by
  induction m generalizing base with
  | nil => rfl
  | cons c m ih =>
    obtain ⟨a, v⟩ := c
    obtain ⟨ha, hlt, hm⟩ := Memory.wf_cons_iff.1 hm
    have hload : Memory.load ((a, v) :: m) base = Memory.load m (base.write (BitVec.ofNat 9 a) v) := rfl
    rw [hload, ih hm, Memory.written_cons, Memory.read_cons]
    have hindex : (BitVec.ofNat 9 a).toNat = a := Nat.mod_eq_of_lt ha
    by_cases hi : i.toNat = a
    · obtain rfl : i = BitVec.ofNat 9 a := BitVec.eq_of_toNat_eq (hi.trans hindex.symm)
      have hw : Memory.written m (BitVec.ofNat 9 a) = false := Memory.written_eq_false_of_lt (hindex.symm ▸ hlt)
      simp [hw, hi]
    · have hne : i ≠ BitVec.ofNat 9 a := fun e => hi (e ▸ hindex)
      simp [hi, Memory.read_write_ne base v hne]

/-- R101: a cycle of a load writes its entry and nothing else. -/
theorem runCycles_one_load {ps : List Inputs} (hp : s.phase ≠ .run)
    (hs : s.pins = { twEn := true, twAddr := i, twData := v } :: ps) :
    runCycles 1 s = (s.storeNode i v).endCycle := by
  have hi := State.inputs_cons s _ _ hs
  rw [runCycles_one, cycleResult_of_noStart (by rw [hi]) hp (by rw [hi]), hi]
  rfl

/-- R143 item 2: the load writes the memory and uses up its script, one cycle an entry. -/
theorem runCycles_load {ps : List Inputs} (hp : s.phase ≠ .run) (hs : s.pins = loadCycles m ++ ps) :
    runCycles m.length s = { s with mem := Memory.load m s.mem, pins := ps, cycle := s.cycle + m.length } := by
  induction m generalizing s with
  | nil => cases s; cases hs; rfl
  | cons c m ih =>
    have h1 := runCycles_one_load hp hs
    have htail : (runCycles 1 s).pins = loadCycles m ++ ps := by
      rw [h1, State.endCycle_pins, State.storeNode_pins, hs]
      rfl
    rw [List.length_cons, runCycles_succ_one, ih (h1 ▸ hp) htail, h1, Nat.add_comm m.length, ← Nat.add_assoc]
    rfl

end Sys2Proof.Machine

namespace Sys2Proof

open Sys2Proof.Machine in
/-- Settles O37: the load leaves the canonical image over the memory, and writes nothing else but the script. -/
theorem loadedImageIsInMemory : Obligations.LoadedImageIsInMemory := by
  intro m s ps hm hp hs
  rw [runCycles_load hp hs]
  exact ⟨Memory.read_load hm s.mem, rfl, rfl, rfl, rfl, rfl, rfl⟩

end Sys2Proof

/-! ### Cycles that are active, cycles that are stalls, and a kept end of the stream (R150, R152, R157) -/

namespace Sys2Proof.Machine

variable {s : State} {k : Nat}

/-- R105: in RUN and without reset, a cycle that is not active changes nothing. -/
theorem cycleResult_of_not_active (hr : s.inputs.rst = false) (hp : s.phase = .run) (ha : activeCycle s = false) :
    cycleResult s = s := by
  cases he : emit s
  · rw [activeCycle_of_noEmit hp he, Bool.or_eq_false_iff] at ha
    exact cycleResult_stall hr hp he ha.1 ha.2
  · exact cycleResult_held hr he (activeCycle_of_emit he ▸ ha)

/-- R152: over any number of stalls only the script moves on. -/
theorem runCycles_stalls (hp : s.phase = .run)
    (hk : ∀ j, j < k → (runCycles j s).inputs.rst = false ∧ activeCycle (runCycles j s) = false) :
    runCycles k s = State.endCycle^[k] s := by
  induction k generalizing s with
  | zero => rfl
  | succ k ih =>
    obtain ⟨⟨hr, ha⟩, htail⟩ := runCycles_head_tail (fun u => u.inputs.rst = false ∧ activeCycle u = false) hk
    have h1 : runCycles 1 s = s.endCycle := by rw [runCycles_one, cycleResult_of_not_active hr hp ha]
    rw [h1] at htail
    rw [runCycles_succ_one, h1, ih (s := s.endCycle) hp htail]
    rfl

theorem activeCycles_eq_of_all_active (hk : ∀ j, j < k → activeCycle (runCycles j s) = true) :
    activeCycles k s = k := by
  induction k generalizing s with
  | zero => rfl
  | succ k ih =>
    obtain ⟨ha, htail⟩ := runCycles_head_tail (activeCycle · = true) hk
    rw [activeCycles, if_pos ha, ih htail, Nat.add_comm]

theorem phase_run_of_activeCycle (ha : activeCycle s = true) : s.phase = .run := by
  by_contra hp
  simp [activeCycle_rest hp] at ha

/-- The last of `k + 1` cycles comes after the first `k`. -/
theorem runCycles_succ_last (k : Nat) (s : State) : runCycles (k + 1) s = runCycles 1 (runCycles k s) := by
  induction k generalizing s with
  | zero => rfl
  | succ k ih => rw [runCycles_succ_one, ih, ← runCycles_succ_one]

/-- R83: behind a pending emission the run goes on, and where the emission is over the cursor is at the root. -/
theorem runCycles_one_of_emit (hr : s.inputs.rst = false) (he : emit s = true) :
    (runCycles 1 s).phase = .run ∧ (runCycles 1 s).consumed = s.consumed ∧
      (emit (runCycles 1 s) = false → (runCycles 1 s).cursor = 0#9) := by
  have hp : s.phase = .run := ((emit_iff s).1 he).1
  rw [runCycles_one, cycleResult_emit hr he]
  cases s.inputs.symReady
  · have hheld : emit s.endCycle = true := he
    exact ⟨hp, rfl, fun hover => by simp [hheld] at hover⟩
  · exact ⟨hp, rfl, fun _ => rfl⟩

/-- R150 item 3: a kept end is shown again, as long as the run has not ended. -/
theorem end_held {t : State} (hs : s.inputs.bitEos = true) (hv : s.inputs.bitValid = false) (hp : t.phase = .run)
    (hh : endHolds s t = true) : t.inputs.bitEos = true ∧ t.inputs.bitValid = false := by
  simpa [endHolds, runEnds, hs, hv, hp] using hh

/-- In `u` the run from `s`, in which the end of the stream was shown, still shows it and has consumed no bit. -/
structure EndShown (s u : State) : Prop where
  phase : u.phase = .run
  eos : u.inputs.bitEos = true
  noBit : u.inputs.bitValid = false
  consumed : u.consumed = s.consumed

/-- R150 item 3: behind pending emissions a kept end stays shown; where they are over the cursor is at the root. -/
theorem endShown_of_kept (h : EndShown s s)
    (hk : ∀ j, j < k → emit (runCycles j s) = true ∧ (runCycles j s).inputs.rst = false ∧
      endHolds (runCycles j s) (runCycles (j + 1) s) = true) :
    EndShown s (runCycles k s) ∧ (0 < k → emit (runCycles k s) = false → (runCycles k s).cursor = 0#9) := by
  induction k with
  | zero => exact ⟨h, nofun⟩
  | succ k ih =>
    obtain ⟨hu, -⟩ := ih fun j hj => hk j (hj.trans k.lt_succ_self)
    obtain ⟨he, hr, hh⟩ := hk k k.lt_succ_self
    rw [runCycles_succ_last] at hh ⊢
    obtain ⟨hp, hc, hover⟩ := runCycles_one_of_emit hr he
    obtain ⟨hs, hv⟩ := end_held hu.eos hu.noBit hp hh
    exact ⟨⟨hp, hs, hv, hc.trans hu.consumed⟩, fun _ => hover⟩

/-- R104: the end of the stream ends the run and consumes no bit; at the root the run is DONE. -/
theorem runCycles_one_of_eos (hr : s.inputs.rst = false) (hp : s.phase = .run) (he : emit s = false)
    (hv : s.inputs.bitValid = false) (hs : s.inputs.bitEos = true) :
    runEnded (runCycles 1 s) = true ∧ (runCycles 1 s).consumed = s.consumed ∧
      (s.cursor = 0#9 → (runCycles 1 s).phase = .done) := by
  rw [runCycles_one, cycleResult_eos hr hp he hv hs]
  split_ifs with hc hstrict
  · exact ⟨rfl, rfl, fun _ => rfl⟩
  · exact ⟨rfl, rfl, fun h => absurd h hc⟩
  · exact ⟨rfl, rfl, fun _ => rfl⟩

end Sys2Proof.Machine

namespace Sys2Proof

open Sys2Proof.Machine in
/-- Settles O42: the active cycles are in RUN, and their number is the one with which the run ends as decoded. -/
theorem runLengthWithoutStalls : Obligations.RunLengthWithoutStalls := by
  intro s t bits syms n hp hr hs hst hdecode hd hactive
  obtain rfl := eq_runCycles_one hst
  refine ⟨fun j hj => beq_iff_eq.2 (phase_run_of_activeCycle (hactive j hj)), ?_⟩
  obtain ⟨-, hended, hresult⟩ := runAgrees_after_start hp hr hs hd
  rw [hdecode] at hended hresult
  have hend := hresult (hended.2 (activeCycles_eq_of_all_active hactive))
  exact beq_iff_eq.2 (congrArg Prod.fst hend.report)

open Sys2Proof.Machine in
/-- Settles O43: over stalls only the script moves on. -/
theorem nothingMovesWithoutTheEnvironment : Obligations.NothingMovesWithoutTheEnvironment := by
  intro k s hp hk
  rw [runCycles_stalls hp hk]
  exact iterate_endCycle_keeps k s

open Sys2Proof.Machine in
/-- Settles O50: the end stays shown up to the cycle with no emission, and EOS acts there. -/
theorem heldEndEndsTheRun : Obligations.HeldEndEndsTheRun := by
  intro k s hp hs hv hk he hr
  obtain ⟨hu, hroot⟩ := endShown_of_kept ⟨hp, hs, hv, rfl⟩ hk
  obtain ⟨hended, hconsumed, hdone⟩ := runCycles_one_of_eos hr hu.phase he hu.noBit hu.eos
  rw [runCycles_succ_last]
  exact ⟨seesEos_of_noEmit hu.phase he hu.noBit hu.eos, hended, hconsumed.trans hu.consumed,
    fun hpos => hdone (hroot hpos he)⟩

end Sys2Proof

/-! ### RESET (R140, R142) -/

namespace Sys2Proof

section
open Sys2Proof.Machine

/-- R140, R31: RESET leaves the hardware of the state after reset, but for the memory. -/
theorem sameHardware_reset (s : State) :
    SameHardware s.handshakes.resetRegisters { State.reset with mem := s.mem } := by
  obtain ⟨-, -, -, -, -, hm⟩ := sameHardware_handshakes s
  exact ⟨rfl, rfl, rfl, rfl, rfl, hm⟩

end

open Sys2Proof.Machine in
/-- Settles O18: both the meaning and the step write the registers of R31, and the outputs are functions of these. -/
theorem resetClearsTheRegisters : Obligations.ResetClearsTheRegisters := by
  intro s
  refine ⟨⟨_, rfl, sameHardware_reset s⟩, fun hr => ⟨_, step_eq s, ?_⟩⟩
  rw [cycleResult_reset hr]
  have h := (sameHardware_endCycle _).trans (sameHardware_reset s)
  exact ⟨h, h.out_eq.trans rfl⟩

open Sys2Proof.Machine in
/-- Settles O19: with an emission pending the handshakes of the cycle are at most the hand-over of its symbol. -/
theorem resetKeepsTheHandover : Obligations.ResetKeepsTheHandover := by
  intro s hr he
  refine ⟨_, step_eq s, ?_⟩
  rw [cycleResult_reset hr, handshakes_of_emit he]
  cases s.inputs.symReady <;> exact ⟨rfl, rfl, rfl, rfl⟩

end Sys2Proof
